-- ==== Sys2Proof/Word.lean ====
section
/-!
DEFINITION. The machine's word and byte types (R6, R10) and the four-word tuple that both the State
`H[0..3]` and the working registers `a, b, c, d` are (R20, R23). All values are unsigned.
-/

namespace Sys2Proof

/-- `u32`: an unsigned 32-bit word, `W = 32` (R6, R10). -/
abbrev Word := BitVec 32

/-- `u8`: a byte (R10). -/
abbrev Byte := BitVec 8

/-- A 16-bit command word, `CMD_WIDTH = 16` (R7, R71). -/
abbrev CmdWord := BitVec 16

/-- Four 32-bit words in the spec's order `A, B, C, D`: the State (R20) or the working registers
(R23). -/
structure Quad where
  a : Word
  b : Word
  c : Word
  d : Word
deriving DecidableEq, Repr

end Sys2Proof
end

