-- ==== Sys2Proof/Syntax.lean ====
section
/-!
DEFINITION. The six commands of spec/opcode_table.json (R73), one constructor each. An operand has
exactly the width of its field (R72), so no operand out of range can be written.
-/

namespace Sys2Proof

/-- A command (R73). -/
inductive Instr where
  /-- `INIT` (R151). -/
  | init
  /-- `PUSHB imm8`: one message byte (R152). -/
  | pushb (imm8 : Byte)
  /-- `FINAL` (R153). -/
  | final
  /-- `RDH i`: state-word number 0..3 (R171). -/
  | rdh (i : BitVec 2)
  /-- `RDD j`: digest byte number 0..15 (R172). -/
  | rdd (j : BitVec 4)
  /-- `RDS` (R173). -/
  | rds
deriving DecidableEq, Repr

end Sys2Proof
end

