-- ==== Sys2Proof/WellFormed.lean ====
section
/-!
DEFINITION. Well-formedness. The check with content is on command words: `legalWord`, the match and
mask rows of R73. On syntax, each operand's type is its field, so `Instr.wellFormed` states the
field bounds of R72 and R73 and holds of every term.
-/

namespace Sys2Proof

/-- One row of R73: a word `w` is the command iff `w & mask = pattern`. -/
structure OpRow where
  pattern : CmdWord
  mask : CmdWord
deriving DecidableEq, Repr

/-- The row of R73 that a command belongs to. -/
def Instr.row : Instr → OpRow
  | .init => ⟨0x1000, 0xFFFF⟩
  | .pushb _ => ⟨0x2000, 0xFF00⟩
  | .final => ⟨0x3000, 0xFFFF⟩
  | .rdh _ => ⟨0x4000, 0xFCFF⟩
  | .rdd _ => ⟨0x5000, 0xF0FF⟩
  | .rds => ⟨0x6000, 0xFFFF⟩

/-- The word matches the row (R73). -/
def OpRow.matchesWord (r : OpRow) (w : CmdWord) : Bool := w &&& r.mask == r.pattern

/-- The six rows of R73, in the table's order. -/
def opcodeRows : List OpRow :=
  [Instr.row .init, Instr.row (.pushb 0), Instr.row .final,
   Instr.row (.rdh 0), Instr.row (.rdd 0), Instr.row .rds]

/-- The word is a command: it matches a row of R73. Every other word is illegal (R74). -/
def legalWord (w : CmdWord) : Bool := opcodeRows.any (·.matchesWord w)

/-- Every operand lies in its field (R72, R73): a byte, a word number 0..3, a byte number 0..15. The
operand types make it true of every term. -/
def Instr.wellFormed : Instr → Bool
  | .init => true
  | .pushb imm8 => decide (imm8.toNat < 256)
  | .final => true
  | .rdh i => decide (i.toNat < 4)
  | .rdd j => decide (j.toNat < 16)
  | .rds => true

end Sys2Proof
end

