-- ==== Sys2Proof/Decode.lean ====
section
/-!
DEFINITION. The decoder, by the procedure of R75 on the fields of R71, total on 16-bit words and
refusing an illegal word by name (R74); then the encoder, from the same format (R71, R73).
-/

namespace Sys2Proof

/-- Why a word is no command (R74, R75). -/
inductive IllegalWord where
  /-- `op` is not 1..6 (R75 step 2). -/
  | unknownOp (op : BitVec 4)
  /-- a must-be-zero bit of the row is set (R75 step 3). -/
  | mustBeZero (op : BitVec 4)
deriving DecidableEq, Repr

/-- What a word decodes to. -/
inductive Decoded where
  | instr (i : Instr)
  | illegal (why : IllegalWord)
deriving DecidableEq, Repr

/-- `op = cmd[15:12]` (R71). -/
def opField (w : CmdWord) : BitVec 4 := w.extractLsb' 12 4

/-- `idx = cmd[11:8]` (R71). -/
def idxField (w : CmdWord) : BitVec 4 := w.extractLsb' 8 4

/-- `imm8 = cmd[7:0]` (R71). -/
def immField (w : CmdWord) : Byte := w.extractLsb' 0 8

/-- Accept the command if its must-be-zero bits are clear (R75 step 3). -/
def acceptIf (zero : Bool) (i : Instr) (op : BitVec 4) : Decoded :=
  if zero then .instr i else .illegal (.mustBeZero op)

/-- The decoding procedure (R75). -/
def decode (w : CmdWord) : Decoded :=
  match (opField w).toNat with
  | 1 => acceptIf (idxField w == 0 && immField w == 0) .init (opField w)
  | 2 => acceptIf (idxField w == 0) (.pushb (immField w)) (opField w)
  | 3 => acceptIf (idxField w == 0 && immField w == 0) .final (opField w)
  | 4 => acceptIf ((idxField w).extractLsb' 2 2 == 0 && immField w == 0)
      (.rdh ((idxField w).extractLsb' 0 2)) (opField w)
  | 5 => acceptIf (immField w == 0) (.rdd (idxField w)) (opField w)
  | 6 => acceptIf (idxField w == 0 && immField w == 0) .rds (opField w)
  | _ => .illegal (.unknownOp (opField w))

/-- The instruction of a decoded word, if it is one. -/
def Decoded.instr? : Decoded → Option Instr
  | .instr i => some i
  | .illegal _ => none

/-- Format `C`: the fields of R71 put together, `op` highest. -/
def formatC (op idx : BitVec 4) (imm8 : Byte) : CmdWord := op ++ idx ++ imm8

/-- The word of a command (R73). -/
def encode : Instr → CmdWord
  | .init => formatC 1 0 0
  | .pushb imm8 => formatC 2 0 imm8
  | .final => formatC 3 0 0
  | .rdh i => formatC 4 (0#2 ++ i) 0
  | .rdd j => formatC 5 j 0
  | .rds => formatC 6 0 0

/-- The instruction read from a table row's bits `w`, of which the table gives `nbits`; the bits above
are 0. A command is one 16-bit word (R71), taken by value: there is no byte order to apply (R55). A
value wider than 16 bits is no command word. -/
def decodeTableWord (nbits w : Nat) : Option Instr :=
  if w % 2 ^ nbits < 2 ^ 16 then (decode (BitVec.ofNat 16 (w % 2 ^ nbits))).instr? else none

end Sys2Proof
end

