-- ==== Sys2Proof/Config.lean ====
section
/-!
DEFINITION. What this hardware fixes of the parameters the source leaves open (R7), and the values the
model names where the spec gives none (log entries 1 and 2). No rule leaves a result open, so there is
no free value.
-/

namespace Sys2Proof.Config

/-- `REJECT_EMPTY` (R7, D2): this hardware rejects the empty message. The one open parameter; the
operation behind `FINAL` takes it as an argument (`Sys2Proof.Machine.finalWith`). -/
def rejectEmpty : Bool := true

/-- `MAX_BYTES = 2^61 - 1` (R7, D10): the largest message length. -/
def maxBytes : BitVec 61 := BitVec.ofNat 61 (2 ^ 61 - 1)

/-- What a byte of `BUF` that nothing has written reads as. DESIGN CHOICE, unsafe (log entry 2): R33
gives none after reset; after `INIT` and after a compression it is the `0x00` of R151 and R134. -/
def unlistedByte : Byte := 0x00

/-- `H` at reset. DESIGN CHOICE, unsafe (log entry 1): R33 gives no value and none is readable. -/
def resetH : Quad := ⟨0, 0, 0, 0⟩

/-- `LEN` at reset. DESIGN CHOICE, unsafe (log entry 1): R33 gives no value and none is readable. -/
def resetLen : BitVec 61 := 0

end Sys2Proof.Config
end

