-- ==== Sys2Proof/Machine/State.lean ====
section
/-!
DEFINITION. The machine's state: every register of spec/10_state.md, the block buffer, the commands the
host has presented and the responses the engine has given. Plain data.
-/

namespace Sys2Proof.Machine

/-- `PHASE` (R27). Its third value names phase `OPEN`; the value 3 never occurs, so it has no
constructor (U8, log entry 10). -/
inductive Phase where
  /-- `IDLE = 0`: no computation open, no digest available. -/
  | idle
  /-- `OPEN = 1`: message bytes are being taken. -/
  | opened
  /-- `DONE = 2`: the final State is held and may be read. -/
  | done
deriving DecidableEq, Repr

/-- The four error kinds (R185). -/
inductive ErrKind where
  /-- illegal command word (R186). -/
  | ill
  /-- command not accepted in this phase (R187). -/
  | seq
  /-- `FINAL` of a zero-byte message (R188). -/
  | empty
  /-- a push past `MAX_BYTES` (R190). -/
  | ovf
deriving DecidableEq, Repr

/-- `ERR`: the four sticky flags (R28). -/
structure Errors where
  ill : Bool
  seq : Bool
  empty : Bool
  ovf : Bool
deriving DecidableEq, Repr

/-- A response `(code[3:0], data[31:0])` (R70, R76). -/
structure Response where
  code : BitVec 4
  data : Word
deriving DecidableEq, Repr

/-- What the host does to the engine (R70, R210, R220). -/
inductive HostEvent where
  /-- presents a command word. -/
  | command (w : CmdWord)
  /-- asserts the reset input (R210): between commands, or in the middle of the command whose word is given
  (log entry 9). -/
  | reset (inProgress : Option CmdWord)
deriving DecidableEq, Repr

/-- A compression in progress: the working registers `a, b, c, d` (R23) and the 6-bit step index `i`
(R24). -/
structure Working where
  regs : Quad
  i : BitVec 6
deriving DecidableEq, Repr

/-- `BUF` (R30, R50) as cells (offset, byte) in canonical form: offsets strictly rising, below 64, no
cell equal to `Config.unlistedByte` (`Memory.wf`, Machine/Ops.lean). -/
abbrev Memory := List Host.Cell

/-- The machine's state. -/
structure State where
  /-- the responses given, oldest first (R70, R219, log entry 6). -/
  responses : List Response
  /-- what the host has presented and the engine has not yet taken, next first (R70, log entry 5). -/
  pending : List HostEvent
  /-- `PHASE` (R27). -/
  phase : Phase
  /-- `ERR` (R28). -/
  err : Errors
  /-- `LEN`, the byte counter, 61 bits (R25). -/
  len : BitVec 61
  /-- `BUF`, the block buffer (R30). -/
  buf : Memory
  /-- working registers and step index; they exist only inside a compression (R23, R24, D17, log
  entry 3). -/
  work : Option Working
  /-- `H[0..3]` = `A, B, C, D` (R20). -/
  h : Quad
deriving DecidableEq, Repr

/-- The machine stops with a fault: never. "A run never hangs and never faults in any way other than the
four error responses" (R219), and an error response is a next state (R189), so no constructor exists.
Safe (log entry 14). -/
inductive Fault where
deriving DecidableEq, Repr

/-- No meaning for the instruction. -/
inductive Refusal where
  /-- raised by an arm of `exec` whose instruction has no meaning yet; no arm is such. Safe. -/
  | notModelled (mnemonic : String)
deriving DecidableEq, Repr

/-- The outcome of a command or a step. -/
abbrev Result := Host.Outcome State Fault Refusal

/-- The machine right after reset (R33, R210): `PHASE = IDLE`, flags clear, no compression in progress,
nothing presented, nothing answered; `H`, `LEN` and `BUF` at the values log entries 1 and 2 name. -/
def State.reset : State where
  responses := []
  pending := []
  phase := .idle
  err := ⟨false, false, false, false⟩
  len := Config.resetLen
  buf := []
  work := none
  h := Config.resetH

end Sys2Proof.Machine
end

