-- ==== Sys2Proof/Machine/Flags.lean ====
section
/-!
DEFINITION. The error flags and codes, and the STATUS view: R27, R28, R29, R76, R185. The datapath has no
condition codes (R121).
-/

namespace Sys2Proof.Machine

/-- All four flags clear (R28, R151). -/
def Errors.clear : Errors := ⟨false, false, false, false⟩

/-- Set the flag of one error kind; the others keep their value (R28, R189). -/
def Errors.set (e : Errors) : ErrKind → Errors
  | .ill => { e with ill := true }
  | .seq => { e with seq := true }
  | .empty => { e with empty := true }
  | .ovf => { e with ovf := true }

/-- The flag of one error kind (R185). -/
def Errors.flag (e : Errors) : ErrKind → Bool
  | .ill => e.ill
  | .seq => e.seq
  | .empty => e.empty
  | .ovf => e.ovf

/-- The response code of an error (R76, R185). -/
def ErrKind.code : ErrKind → BitVec 4
  | .ill => 1
  | .seq => 2
  | .empty => 3
  | .ovf => 4

/-- The response code `OK` (R76). -/
def okCode : BitVec 4 := 0

/-- The 2-bit value of `PHASE` (R27). -/
def Phase.bits : Phase → BitVec 2
  | .idle => 0
  | .opened => 1
  | .done => 2

/-- A flag as bit number `k` of a word. -/
def flagBit (f : Bool) (k : Nat) : Word := (BitVec.ofBool f).setWidth 32 <<< k

/-- `STATUS = PHASE | (ERR.ILL << 4) | (ERR.SEQ << 5) | (ERR.EMPTY << 6) | (ERR.OVF << 7)` (R29). -/
def State.status (s : State) : Word :=
  s.phase.bits.setWidth 32 ||| flagBit s.err.ill 4 ||| flagBit s.err.seq 5
    ||| flagBit s.err.empty 6 ||| flagBit s.err.ovf 7

end Sys2Proof.Machine
end

