-- ==== Sys2Proof/Machine/Ops.lean ====
section
/-!
DEFINITION. The named operations over the state: `BUF`'s bytes (R52), ending a command normally
(`respond`, R13) or by an error (`raiseErr`, R189), the reset input (R210) and the illegal word (R186).
The errors have no handler, so there is no return operation (R192).
-/

namespace Sys2Proof.Machine

/-- Read byte `j` of the buffer (R52); an unlisted byte reads as `Config.unlistedByte`. -/
def Memory.read : Memory → Nat → Byte
  | [], _ => Config.unlistedByte
  | (a, v) :: rest, j => if a = j then v else Memory.read rest j

/-- The buffer without a cell for `j`. -/
def Memory.erase : Memory → Nat → Memory
  | [], _ => []
  | (a, v) :: rest, j =>
    if a = j then Memory.erase rest j else (a, v) :: Memory.erase rest j

/-- Put a cell before the first one of a greater offset. -/
def Memory.insert : Memory → Nat → Byte → Memory
  | [], j, v => [(j, v)]
  | (a, w) :: rest, j, v =>
    if j < a then (j, v) :: (a, w) :: rest else (a, w) :: Memory.insert rest j v

/-- `BUF[j] <- v`: write byte `j` and no other (R52). The offset is 6 bits, so one outside 0..63 cannot be
formed. Writing what an unlisted byte reads as removes the cell, which keeps the canonical form. -/
def Memory.write (m : Memory) (j : BitVec 6) (v : Byte) : Memory :=
  if v = Config.unlistedByte then m.erase j.toNat else (m.erase j.toNat).insert j.toNat v

/-- `BUF <- zeros(64)` (R134, R151): in canonical form, no cell. -/
def Memory.zeros : Memory := []

/-- The canonical form: offsets strictly rising, below 64, no cell equal to what an unlisted byte reads
as. -/
def Memory.wf : Memory → Bool
  | [] => true
  | [(a, v)] => decide (a < 64) && v != Config.unlistedByte
  | (a, v) :: (b, w) :: rest =>
    decide (a < b) && v != Config.unlistedByte && Memory.wf ((b, w) :: rest)

/-- `BUF[0..64)` as a sequence of 64 bytes (R12, R134). -/
def Memory.bytes (m : Memory) : List Byte := (List.range 64).map m.read

/-- The engine gives one more response (R70). -/
def State.answer (s : State) (code : BitVec 4) (data : Word) : State :=
  { s with responses := s.responses ++ [⟨code, data⟩] }

/-- `respond(data)`: the command ends normally (R13, R76). -/
def respond (data : Word) (s : State) : Result := .next (s.answer okCode data)

/-- The state a raise leaves (R189): the flag of the code is set, the response is `(code, 0)`, and nothing
else is written, saved or switched. -/
def State.raised (s : State) (k : ErrKind) : State :=
  { s with err := s.err.set k }.answer k.code 0

/-- `raise Err(code)` (R189): the one way a command ends by an error. -/
def raiseErr (k : ErrKind) (s : State) : Result := .next (s.raised k)

/-- The reset input (R210): the reset state, whatever the engine was doing. What the host has presented and
the responses already given lie outside the engine and stay. -/
def State.applyReset (s : State) : State :=
  { State.reset with pending := s.pending, responses := s.responses }

end Sys2Proof.Machine
end

