-- ==== Sys2Proof/Machine/Operands.lean ====
section
/-!
DEFINITION. Every operand and every field a command takes from the state: byte order helpers (R12, R55),
the fill and the bit length of `LEN` (R25), the message schedule's word (R53), the state word of `RDH`
(R171) and the digest byte of `RDD` (R60, R172).
-/

namespace Sys2Proof.Machine

/-- `le32(b0,b1,b2,b3) = b0 | (b1 << 8) | (b2 << 16) | (b3 << 24)` (R12). -/
def le32 (b0 b1 b2 b3 : Byte) : Word :=
  b0.setWidth 32 ||| (b1.setWidth 32 <<< 8) ||| (b2.setWidth 32 <<< 16) ||| (b3.setWidth 32 <<< 24)

/-- `LE32(w)`: the four bytes of a word, least significant first (R12). -/
def le32Bytes (w : Word) : List Byte :=
  [w.extractLsb' 0 8, w.extractLsb' 8 8, w.extractLsb' 16 8, w.extractLsb' 24 8]

/-- Byte `i` of `LE64(v)`: `(v >> (8*i)) & 0xFF` (R12, R94). -/
def le64Byte (v : BitVec 64) (i : Nat) : Byte := ((v >>> (8 * i)) &&& 0xFF).setWidth 8

/-- `LE64(v)`: eight bytes, least significant first (R12). -/
def le64Bytes (v : BitVec 64) : List Byte := (List.range 8).map (le64Byte v)

/-- The fill `n = LEN mod 64 = LEN[5:0]` (R25): the offset in `BUF` of the next byte. -/
def fill (len : BitVec 61) : BitVec 6 := len.extractLsb' 0 6

/-- The bit length `8 * LEN` as the 64-bit trailer value (R25, R94). -/
def bitLength (len : BitVec 61) : BitVec 64 := 8 * len.setWidth 64

/-- `M(k)`, word `k` of the message schedule, read from the buffer (R53). -/
def Memory.word (m : Memory) (k : Nat) : Word :=
  le32 (m.read (4 * k)) (m.read (4 * k + 1)) (m.read (4 * k + 2)) (m.read (4 * k + 3))

/-- `H[i]`: 0 = A, 1 = B, 2 = C, 3 = D (R20, R171). -/
def Quad.word (q : Quad) (i : BitVec 2) : Word :=
  match i.toNat with
  | 0 => q.a
  | 1 => q.b
  | 2 => q.c
  | _ => q.d

/-- `DG[j] = (H[j div 4] >> (8 * (j mod 4))) & 0xFF`, zero-extended to 32 bits (R60, R172). -/
def digestByte (q : Quad) (j : BitVec 4) : Word :=
  (Quad.word q (BitVec.ofNat 2 (j.toNat / 4)) >>> (8 * (j.toNat % 4))) &&& 0xFF

end Sys2Proof.Machine
end

