-- ==== Sys2Proof/Machine/Compressor.lean ====
section
/-!
DEFINITION. The Compressor (spec/41_compressor.md): first the pure functions of the function level (R110
to R131), then the micro-operations LOADW, STEP, FOLD and `do_compress` on the state (R123 to R134).
-/

namespace Sys2Proof.Machine

/-- `F(x, y, z) = (x & y) | ((~x) & z)` (R112). -/
def fnF (x y z : Word) : Word := (x &&& y) ||| (~~~x &&& z)

/-- `G(x, y, z) = (x & z) | (y & (~z))` (R113). -/
def fnG (x y z : Word) : Word := (x &&& z) ||| (y &&& ~~~z)

/-- `Hx(x, y, z) = x ^ y ^ z` (R114). -/
def fnHx (x y z : Word) : Word := x ^^^ y ^^^ z

/-- `I(x, y, z) = y ^ (x | (~z))` (R115). -/
def fnI (x y z : Word) : Word := y ^^^ (x ||| ~~~z)

/-- `f_r`: the nonlinear function of round `r` (R116). -/
def roundFn (r : Nat) (x y z : Word) : Word :=
  match r with
  | 0 => fnF x y z
  | 1 => fnG x y z
  | 2 => fnHx x y z
  | _ => fnI x y z

/-- `rotl32(x, s) = ((x << s) mod 2^32) | (x >> (32 - s))` for `0 < s < 32` (R122). No other amount is ever
used (log entry 13). -/
def rotl32 (x : Word) (s : Nat) : Word := (x <<< s) ||| (x >>> (32 - s))

/-- The new register of step `i`: `b +32 rotl32(((a +32 f_r(b,c,d)) +32 M(K[i])) +32 T[i], S[i])` (R124, with
the `b` term of 90_conflicts.md C1). -/
def stepValue (i : Nat) (a b c d : Word) (M : Nat → Word) : Word :=
  b + rotl32 (((a + roundFn (i / 16) b c d) + M (tableK i)) + tableT i) (tableS i)

/-- `step(i, (a,b,c,d), M) = (d, v, b, c)` (R129). -/
def roundStep (i : Nat) (q : Quad) (M : Nat → Word) : Quad :=
  ⟨q.d, stepValue i q.a q.b q.c q.d M, q.b, q.c⟩

/-- `n` steps in order, from step number `i`. -/
def roundSteps : (n i : Nat) → Quad → (Nat → Word) → Quad
  | 0, _, q, _ => q
  | n + 1, i, q, M => roundSteps n (i + 1) (roundStep i q M) M

/-- `rounds`: the 64 steps in order (R128, R130). -/
def rounds (q : Quad) (M : Nat → Word) : Quad := roundSteps 64 0 q M

/-- The step on four fixed registers `ra, rb, rc, rd` (R125): exactly one is written, in the order A, D, C,
B. The machine uses the rotating form; this second form is stated equal to it. -/
def fixedStep (i : Nat) (r : Quad) (M : Nat → Word) : Quad :=
  match i % 4 with
  | 0 => { r with a := stepValue i r.a r.b r.c r.d M }
  | 1 => { r with d := stepValue i r.d r.a r.b r.c M }
  | 2 => { r with c := stepValue i r.c r.d r.a r.b M }
  | _ => { r with b := stepValue i r.b r.c r.d r.a M }

/-- `n` fixed-register steps in order, from step number `i` (R125). -/
def fixedSteps : (n i : Nat) → Quad → (Nat → Word) → Quad
  | 0, _, r, _ => r
  | n + 1, i, r, M => fixedSteps n (i + 1) (fixedStep i r M) M

/-- Word-wise addition modulo 2^32 (R121, R127). -/
def Quad.add (p q : Quad) : Quad := ⟨p.a + q.a, p.b + q.b, p.c + q.c, p.d + q.d⟩

/-- `M(k)` of a block given as a sequence of bytes (R111). -/
def blockWord (blk : List Byte) (k : Nat) : Word :=
  le32 (blk.getD (4 * k) 0) (blk.getD (4 * k + 1) 0) (blk.getD (4 * k + 2) 0) (blk.getD (4 * k + 3) 0)

/-- `compress((A,B,C,D), blk)` (R131): a pure function of the State and a 64-byte block. -/
def compress (h : Quad) (blk : List Byte) : Quad := Quad.add h (rounds h (blockWord blk))

/-- LOADW: `(a,b,c,d) <- (H[0],H[1],H[2],H[3])`, `i <- 0` (R123). -/
def loadw (s : State) : State := { s with work := some ⟨s.h, 0⟩ }

/-- STEP: one of the 64, numbered by the step index (R124). It is issued only inside a compression (log
entry 13). -/
def microStep (s : State) : State :=
  match s.work with
  | none => s
  | some w => { s with work := some ⟨roundStep w.i.toNat w.regs s.buf.word, w.i + 1⟩ }

/-- `n` STEPs in order. -/
def microSteps : Nat → State → State
  | 0, s => s
  | n + 1, s => microSteps n (microStep s)

/-- FOLD: add the working registers into `H`; they and the step index then hold no value (R127). -/
def foldw (s : State) : State :=
  match s.work with
  | none => s
  | some w => { s with h := Quad.add s.h w.regs, work := none }

/-- `do_compress()`: LOADW, 64 STEPs, FOLD (R128), then `BUF <- zeros(64)` (R134). -/
def doCompress (s : State) : State :=
  { foldw (microSteps 64 (loadw s)) with buf := Memory.zeros }

end Sys2Proof.Machine
end

