-- ==== Sys2Proof/Machine/Padder.lean ====
section
/-!
DEFINITION. The Padder (spec/40_padder.md): the pure function `pad` and its blocks (R90 to R96), `md5_state`
(R133), and the micro-operations ABSORB and PADFIN on the state (R98, R99).
-/

namespace Sys2Proof.Machine

/-- The padded length `P = 64 * ((L + 72) div 64)` (R91). -/
def padLen (L : Nat) : Nat := 64 * ((L + 72) / 64)

/-- `pad(m) = m ++ [0x80] ++ zeros(P - L - 9) ++ LE64(8 * L)` (R90), for `8 * L < 2^64`. -/
def pad (m : List Byte) : List Byte :=
  m ++ [0x80] ++ List.replicate (padLen m.length - m.length - 9) 0
    ++ le64Bytes (BitVec.ofNat 64 (8 * m.length))

/-- Block `q` of a sequence: bytes `64q` to `64q + 63` (R96). -/
def blockAt (bs : List Byte) (q : Nat) : List Byte := (bs.drop (64 * q)).take 64

/-- The State after the first `n` blocks of a sequence, from `IV`, left to right (R96, R133). -/
def stateAfter (bs : List Byte) (n : Nat) : Quad :=
  (List.range n).foldl (fun h q => compress h (blockAt bs q)) iv

/-- `md5_state(m)`: the fold of `compress` over all blocks of `pad(m)` (R133). -/
def md5State (m : List Byte) : Quad := stateAfter (pad m) ((pad m).length / 64)

/-- ABSORB (R98): the byte goes to the fill's offset and is counted; filling offset 63 compresses. At
`MAX_BYTES` it raises `OVF` instead and writes nothing. -/
def absorb (v : Byte) (s : State) : Except ErrKind State :=
  if s.len = Config.maxBytes then .error .ovf
  else
    let s' := { s with buf := s.buf.write (fill s.len) v, len := s.len + 1 }
    .ok (if fill s.len = 63 then doCompress s' else s')

/-- Write the marker `0x80` at the fill's offset (R92, R99). -/
def writeMarker (s : State) : State := { s with buf := s.buf.write (fill s.len) 0x80 }

/-- Write trailer bytes `i`, `i + 1`, ... (`k` of them): `BUF[56 + i] <- ((8 * LEN) >> (8 * i)) & 0xFF`
(R99). -/
def writeTrailerFrom (v : BitVec 64) : (k i : Nat) → Memory → Memory
  | 0, _, m => m
  | k + 1, i, m =>
    writeTrailerFrom v k (i + 1) (m.write (BitVec.ofNat 6 (56 + i)) (le64Byte v i))

/-- Write the trailer: the bit length, 8 bytes at offsets 56..63 (R94, R99). -/
def writeTrailer (s : State) : State :=
  { s with buf := writeTrailerFrom (bitLength s.len) 8 0 s.buf }

/-- PADFIN (R99): marker; if the fill leaves no room for the trailer (`n >= 56`) close the block; trailer;
the last compression. -/
def padfin (s : State) : State :=
  let s1 := writeMarker s
  let s2 := if 56 ≤ (fill s.len).toNat then doCompress s1 else s1
  doCompress (writeTrailer s2)

end Sys2Proof.Machine
end

