-- ==== Sys2Proof/Machine/Message.lean ====
section
/-!
DEFINITION. The message commands (spec/42_message_commands.md). The order of checks is R150: the word is
already decoded; then the phase; then the value; only then is state written.
-/

namespace Sys2Proof.Machine

/-- `INIT` (R151): accepted in every phase. -/
def execInit (s : State) : Result :=
  respond 0
    { s with
      h := iv
      len := 0
      buf := Memory.zeros
      err := Errors.clear
      phase := .opened }

/-- `PUSHB imm8` (R152): accepted in phase `OPEN` only; `OVF` at `MAX_BYTES`. -/
def execPushb (imm8 : Byte) (s : State) : Result :=
  if s.phase = .opened then
    match absorb imm8 s with
    | .error k => raiseErr k s
    | .ok s' => respond 0 s'
  else raiseErr .seq s

/-- `FINAL` (R153) with `REJECT_EMPTY` as an argument (R7, D2): accepted in phase `OPEN` only; a message of
zero bytes, if rejected, closes the phase and raises `EMPTY`. -/
def finalWith (rejectEmpty : Bool) (s : State) : Result :=
  if s.phase = .opened then
    if rejectEmpty && s.len == 0 then raiseErr .empty { s with phase := .idle }
    else respond 0 { padfin s with phase := .done }
  else raiseErr .seq s

/-- `FINAL` (R153) of this hardware, `REJECT_EMPTY = true`. -/
def execFinal (s : State) : Result := finalWith Config.rejectEmpty s

end Sys2Proof.Machine
end

