-- ==== Sys2Proof/Machine/Readout.lean ====
section
/-!
DEFINITION. The readout commands (spec/43_readout_commands.md). A completed readout writes nothing but its
response (R170).
-/

namespace Sys2Proof.Machine

/-- `RDH i` (R171): the state word as a number, in phases `OPEN` and `DONE`. -/
def execRdh (i : BitVec 2) (s : State) : Result :=
  if s.phase = .idle then raiseErr .seq s else respond (Quad.word s.h i) s

/-- `RDD j` (R172): digest byte `j`, zero-extended, in phase `DONE`. -/
def execRdd (j : BitVec 4) (s : State) : Result :=
  if s.phase = .done then respond (digestByte s.h j) s else raiseErr .seq s

/-- `RDS` (R173): `STATUS`, in every phase; the flags are not cleared. -/
def execRds (s : State) : Result := respond s.status s

end Sys2Proof.Machine
end

