-- ==== Sys2Proof/Machine/Dispatch.lean ====
section
/-!
DEFINITION. The command dispatch: one arm per command.
-/

namespace Sys2Proof.Machine

def exec (i : Instr) (s : State) : Host.Outcome State Fault Refusal :=
  match i with
  | .init => Sys2Proof.Machine.execInit s
  | .pushb imm8 => Sys2Proof.Machine.execPushb imm8 s
  | .final => Sys2Proof.Machine.execFinal s
  | .rdh n => Sys2Proof.Machine.execRdh n s
  | .rdd j => Sys2Proof.Machine.execRdd j s
  | .rds => Sys2Proof.Machine.execRds s

end Sys2Proof.Machine
end

