-- ==== Sys2Proof/Machine/Fetch.lean ====
section
/-!
DEFINITION. Taking the next thing the host presents (R70, R213): there is no program counter and no
instruction memory (R26); the commands lie in `State.pending` (log entry 5).
-/

namespace Sys2Proof.Machine

/-- Take what the host presents next, if anything. -/
def fetch (s : State) : Option (HostEvent × State) :=
  match s.pending with
  | [] => none
  | e :: rest => some (e, { s with pending := rest })

/-- Nothing is presented: "between commands the engine simply holds its state" (R197, log entry 7). -/
def holdState (s : State) : Result := .next s

/-- The reset input is asserted (R210); it gets no response (R220), nor does a command it abandons. -/
def takeReset (s : State) : Result := .next s.applyReset

/-- An illegal word (R186): `ERR.ILL` is set, the response is `(ILL, 0)`, nothing else changes. -/
def takeIllegal (s : State) : Result := raiseErr .ill s

/-- The host presents the word next, ahead of what already waits. -/
def presentNext (w : CmdWord) (s : State) : State :=
  { s with pending := .command w :: s.pending }

end Sys2Proof.Machine
end

