-- ==== Sys2Proof/Machine/Step.lean ====
section
/-!
DEFINITION. One step: the engine takes what the host presents next and executes it whole (R213): a command
(R150), an illegal word (R186) or the reset input (R210).
-/

namespace Sys2Proof.Machine

/-- One step of the engine. -/
def step (s : State) : Host.Outcome State Fault Refusal :=
  match fetch s with
  | none => holdState s
  | some (.reset _, s') => takeReset s'
  | some (.command w, s') =>
    match decode w with
    | .instr i => exec i s'
    | .illegal _ => takeIllegal s'

/-- The state with the command of a table row presented next, so that the very next step runs it. The
table's bits `w` (of which it gives `nbits`) are the command word itself (R71). -/
def State.withFetchWord (s : State) (nbits w : Nat) : State :=
  presentNext (BitVec.ofNat 16 (w % 2 ^ nbits)) s

end Sys2Proof.Machine
end

