-- ==== Sys2Proof/Machine/Digest.lean ====
section
/-!
DEFINITION. The digest as bytes (R175, R176), and its hexadecimal text, which is the host's (R177) and is
given only so that the source's vectors can be compared.
-/

namespace Sys2Proof.Machine

/-- `digest_bytes((A,B,C,D)) = LE32(A) ++ LE32(B) ++ LE32(C) ++ LE32(D)` (R175). -/
def digestBytes (q : Quad) : List Byte :=
  le32Bytes q.a ++ le32Bytes q.b ++ le32Bytes q.c ++ le32Bytes q.d

/-- `md5_bytes(m) = digest_bytes(md5_state(m))` (R176). -/
def md5Bytes (m : List Byte) : List Byte := digestBytes (md5State m)

/-- One hexadecimal digit, from `0123456789abcdef` (R177). -/
def hexDigit (n : Nat) : Char :=
  "0123456789abcdef".toList.getD n '?'

/-- `hex(bytes)`: each byte as two digits, the high nibble first (R177). -/
def hex (bs : List Byte) : List Char :=
  bs.flatMap fun b => [hexDigit (b.toNat / 16), hexDigit (b.toNat % 16)]

end Sys2Proof.Machine
end

