-- ==== Sys2Proof/Safety.lean ====
section
/-!
DEFINITION. The terms statements are made in: the state invariants of R32, what it means that the engine
holds a message (R32 I2) or its digest (R32 I3), well-formed responses (R76), and runs (R219).
-/

namespace Sys2Proof.Machine

/-- A response as R76 allows it: a code 0..4, and data 0 unless the code is `OK`. -/
def Response.wf (r : Response) : Prop := r.code.toNat ≤ 4 ∧ (r.code ≠ okCode → r.data = 0)

/-- The invariant of the state between commands: `BUF` is in canonical form; no compression is in progress
(R23, R213); in phase `OPEN` every byte from the fill on is zero (R32 I2); in phase `DONE` the buffer is all
zero (R32 I3); every response given is one R76 allows. -/
structure Inv (s : State) : Prop where
  bufWf : s.buf.wf = true
  noWork : s.work = none
  zeroFill : s.phase = .opened → ∀ j, (fill s.len).toNat ≤ j → s.buf.read j = 0
  zeroDone : s.phase = .done → ∀ j, s.buf.read j = 0
  answers : ∀ r ∈ s.responses, r.wf

/-- Phase `OPEN` with `m` the bytes taken so far (R32 I2, I4): `LEN` counts them, `H` is the State after their
complete blocks, and `BUF` holds the rest, then zeros. -/
structure Holds (s : State) (m : List Byte) : Prop where
  phase : s.phase = .opened
  len : s.len.toNat = m.length
  h : s.h = stateAfter m (m.length / 64)
  buf : ∀ j, j < 64 → s.buf.read j =
    if j < m.length % 64 then m.getD (64 * (m.length / 64) + j) 0 else 0

/-- Phase `DONE` with the digest of `m` (R32 I3, I4). -/
structure Closed (s : State) (m : List Byte) : Prop where
  phase : s.phase = .done
  len : s.len.toNat = m.length
  h : s.h = md5State m
  buf : ∀ j, j < 64 → s.buf.read j = 0

/-- R32's I2 and I3 of one state: in phase `OPEN` it holds some message, in phase `DONE` some digest. -/
def MessageInv (s : State) : Prop :=
  (s.phase = .opened → ∃ m, Holds s m) ∧ (s.phase = .done → ∃ m, Closed s m)

/-- The registers a command computes with, but for the flags: `H`, `LEN`, `BUF`, `PHASE`, and the working
registers. -/
def SameComputation (s t : State) : Prop :=
  t.h = s.h ∧ t.len = s.len ∧ t.buf = s.buf ∧ t.phase = s.phase ∧ t.work = s.work

/-- The words of a computation (R156): `INIT`, one `PUSHB` per byte, `FINAL`. -/
def messageCommands (m : List Byte) : List Instr := .init :: (m.map .pushb ++ [.final])

/-- A list of commands as the host presents it. -/
def present (is : List Instr) : List HostEvent := is.map fun i => .command (encode i)

/-- `k` steps end in this state (R219). -/
def RunsTo (k : Nat) (s t : State) : Prop := Sys2Proof.core.run k s = .next t

end Sys2Proof.Machine
end

