-- ==== Sys2Proof/Certificates/Slice0/Obligations.lean ====
section
/-!
DEFINITION. The statements for the provers, from the numbered rules of spec/. Response codes are written
as the numbers of R76: 0 `OK`, 1 `ILL`, 2 `SEQ`, 3 `EMPTY`, 4 `OVF`. The lists `pending` and `responses` are the
model's own form of the host's side of R70 and R219 (log entries 5 and 6).
-/

open Sys2Proof Sys2Proof.Machine

/-! ## Encoding -/

/-- R79: the worked encodings, both ways, and the illegal words. -/
def Obligations.WorkedEncodings : Prop :=
  ([(0x1000, .init), (0x2061, .pushb 0x61), (0x2000, .pushb 0x00), (0x20FF, .pushb 0xFF),
      (0x3000, .final), (0x4000, .rdh 0), (0x4300, .rdh 3), (0x5000, .rdd 0), (0x5F00, .rdd 15),
      (0x6000, .rds)] : List (CmdWord × Instr)).Forall
    (fun p => decode p.1 = .instr p.2 ∧ encode p.2 = p.1) ∧
  ([0x0000, 0x1001, 0x2161, 0x3100, 0x4400, 0x4001, 0x5001, 0x6001, 0x7000, 0xFFFF] :
    List CmdWord).Forall fun w => ∃ why, decode w = .illegal why

/-- R72, R73: a word is a command iff it matches the row's mask and pattern, and its operands are the bits
of their fields. -/
def Obligations.CommandMatchSets : Prop :=
  ∀ w : CmdWord,
    (decode w = .instr .init ↔ w &&& 0xFFFF = 0x1000) ∧
    (∀ b, decode w = .instr (.pushb b) ↔ w &&& 0xFF00 = 0x2000 ∧ w.extractLsb' 0 8 = b) ∧
    (decode w = .instr .final ↔ w &&& 0xFFFF = 0x3000) ∧
    (∀ i, decode w = .instr (.rdh i) ↔ w &&& 0xFCFF = 0x4000 ∧ w.extractLsb' 8 2 = i) ∧
    (∀ j, decode w = .instr (.rdd j) ↔ w &&& 0xF0FF = 0x5000 ∧ w.extractLsb' 8 4 = j) ∧
    (decode w = .instr .rds ↔ w &&& 0xFFFF = 0x6000)

/-- R71 to R73: decoding the word of a command gives the command, with every operand at every value. -/
def Obligations.DecodeEncode : Prop :=
  ∀ i : Instr, i.wellFormed = true → decode (encode i) = .instr i

/-- R71 to R73: each legal word has one meaning, the command whose word it is. -/
def Obligations.EncodeDecode : Prop :=
  ∀ (w : CmdWord) (i : Instr), decode w = .instr i → encode i = w

/-- R74, R186: which words are illegal, field by field; the same words match no row of R73; in every phase
an illegal word sets `ERR.ILL`, gets the response `(ILL, 0)` and changes nothing else. -/
def Obligations.IllegalWords : Prop :=
  (∀ w : CmdWord, (∃ why, decode w = .illegal why) ↔ legalWord w = false) ∧
  (∀ w : CmdWord, (∃ why, decode w = .illegal why) ↔
    let op := (w.extractLsb' 12 4).toNat
    op = 0 ∨ 7 ≤ op ∨
    ((op = 1 ∨ op = 3 ∨ op = 6) ∧ w.extractLsb' 0 12 ≠ 0) ∨
    (op = 2 ∧ w.extractLsb' 8 4 ≠ 0) ∨
    (op = 4 ∧ (4 ≤ (w.extractLsb' 8 4).toNat ∨ w.extractLsb' 0 8 ≠ 0)) ∨
    (op = 5 ∧ w.extractLsb' 0 8 ≠ 0)) ∧
  ∀ (s : State) w rest why, s.pending = .command w :: rest → decode w = .illegal why →
    step s = .next { s with
      pending := rest
      err := { s.err with ill := true }
      responses := s.responses ++ [⟨1, 0⟩] }

/-! ## The step -/

/-- R70, R75, R213: when the next presented word decodes to a command, the step is the command's meaning on
the state with the word taken. -/
def Obligations.StepRunsDecoded : Prop :=
  ∀ (s : State) w rest i, s.pending = .command w :: rest → decode w = .instr i →
    i.wellFormed = true → step s = exec i { s with pending := rest }

/-- R197: with nothing presented the engine holds its state (log entry 7). -/
def Obligations.NothingPresentedHoldsState : Prop :=
  ∀ s : State, s.pending = [] → step s = .next s

/-- R210, R220: the reset input, also in the middle of a command, takes the engine from any state to phase
`IDLE` with all flags clear, `STATUS` zero and no compression in progress, without a response. What `H`,
`LEN` and `BUF` then hold is the model's choice (log entries 1 and 2) and not stated. Two parts are the model's
choice too, in no rule (log entry 9): that the words still waiting survive the reset (`t.pending = rest`), and
that one event carries both the reset and the word of the command it abandons. -/
def Obligations.ResetInputEffect : Prop :=
  ∀ (s : State) c rest, s.pending = .reset c :: rest →
    ∃ t, step s = .next t ∧ t.phase = .idle ∧ (∀ k, t.err.flag k = false) ∧ t.status = 0 ∧
      t.work = none ∧ t.pending = rest ∧ t.responses = s.responses

/-- R218, R219: every step, from every state, ends in a next state; the engine never hangs and never
faults. A command's step gets exactly one response (R70). -/
def Obligations.EveryStepCompletes : Prop :=
  ∀ s : State, ∃ t, step s = .next t ∧
    ∀ w rest, s.pending = .command w :: rest →
      t.pending = rest ∧ ∃ r, t.responses = s.responses ++ [r]

/-! ## The message commands -/

/-- R151: `INIT` (`0x1000`), in every phase: the initial State, `LEN` 0, all of `BUF` zero, the flags clear, phase
`OPEN`, response `(OK, 0)`. -/
def Obligations.InitResult : Prop :=
  encode .init = 0x1000 ∧ ∀ s : State, ∃ t, exec .init s = .next t ∧
    t.h.a = 0x67452301 ∧ t.h.b = 0xefcdab89 ∧ t.h.c = 0x98badcfe ∧ t.h.d = 0x10325476 ∧
    t.len = 0 ∧ (∀ a, Memory.read t.buf a = 0) ∧
    t.err = ⟨false, false, false, false⟩ ∧ t.phase = .opened ∧
    t.work = s.work ∧ t.pending = s.pending ∧ t.responses = s.responses ++ [⟨0, 0⟩]

/-- R152, R98: `PUSHB` (`0x2000 | imm8`). Outside phase `OPEN` it raises `SEQ`; at `LEN = 2^61 - 1` it raises `OVF`; else the
byte is stored at the fill's offset and counted, and if that offset is 63 the block is compressed and the
buffer cleared. -/
def Obligations.PushbResult : Prop :=
  ∀ (v : Byte) (s : State),
    encode (.pushb v) = 0x2000 ||| v.setWidth 16 ∧
    (s.phase ≠ .opened → exec (.pushb v) s = .next { s with
      err := { s.err with seq := true }, responses := s.responses ++ [⟨2, 0⟩] }) ∧
    (s.phase = .opened → s.len.toNat = 2 ^ 61 - 1 → exec (.pushb v) s = .next { s with
      err := { s.err with ovf := true }, responses := s.responses ++ [⟨4, 0⟩] }) ∧
    (s.phase = .opened → s.len.toNat < 2 ^ 61 - 1 →
      ∃ t, exec (.pushb v) s = .next t ∧
        t.len.toNat = s.len.toNat + 1 ∧ t.phase = .opened ∧ t.err = s.err ∧
        t.pending = s.pending ∧ t.responses = s.responses ++ [⟨0, 0⟩] ∧
        ((fill s.len).toNat ≠ 63 →
          t.h = s.h ∧ t.work = s.work ∧
          ∀ a, Memory.read t.buf a = if a = (fill s.len).toNat then v else Memory.read s.buf a) ∧
        ((fill s.len).toNat = 63 →
          t.h = compress s.h
            ((List.range 64).map fun j => if j = 63 then v else Memory.read s.buf j) ∧
          t.work = none ∧ ∀ a, Memory.read t.buf a = 0))

/-- R99: `FINAL`, unless it rejects an empty message, runs one compression when the fill is at most 55 and two
when it is 56 or more, on the marker and trailer as the rule places them; `LEN` is kept, `BUF` ends all
zero, the phase is `DONE`. For either value `r` of `REJECT_EMPTY`; this hardware's is true. -/
def Obligations.FinalPads : Prop :=
  ∀ (r : Bool) (s : State), s.phase = .opened → (r = true → s.len ≠ 0) →
    let n := (fill s.len).toNat
    let trailer (i : Nat) : Byte := BitVec.ofNat 8 ((8 * s.len.toNat) >>> (8 * i))
    let marked (j : Nat) : Byte := if j = n then 0x80 else Memory.read s.buf j
    ∃ t, finalWith r s = .next t ∧ (r = true → exec .final s = .next t) ∧
      t.len = s.len ∧ (∀ a, Memory.read t.buf a = 0) ∧ t.phase = .done ∧ t.err = s.err ∧
      t.work = none ∧ t.pending = s.pending ∧ t.responses = s.responses ++ [⟨0, 0⟩] ∧
      (n ≤ 55 → t.h = compress s.h
        ((List.range 64).map fun j => if 56 ≤ j then trailer (j - 56) else marked j)) ∧
      (56 ≤ n → t.h = compress (compress s.h ((List.range 64).map marked))
        ((List.range 64).map fun j => if 56 ≤ j then trailer (j - 56) else 0))

/-- R188: `FINAL` of a zero-byte message raises `EMPTY` and closes the phase with everything else kept; with
`REJECT_EMPTY = false` it digests the empty message instead. -/
def Obligations.FinalOfEmptyMessage : Prop :=
  (∀ s : State, s.phase = .opened → s.len = 0 → exec .final s = .next { s with
    phase := .idle
    err := { s.err with empty := true }
    responses := s.responses ++ [⟨3, 0⟩] }) ∧
  ∀ s : State, Holds s [] → ∃ t, finalWith false s = .next t ∧ Closed t [] ∧
    t.err = s.err ∧ t.responses = s.responses ++ [⟨0, 0⟩]

/-! ## The readout commands -/

/-- R171: `RDH i` (`0x4000 | (i << 8)`): `SEQ` in phase `IDLE`; else the state word as a number, and nothing else changes. -/
def Obligations.RdhResult : Prop :=
  (∀ i, encode (.rdh i) = 0x4000 ||| (i.setWidth 16 <<< 8)) ∧ ∀ s : State,
    (s.phase = .idle → ∀ i, exec (.rdh i) s = .next { s with
      err := { s.err with seq := true }, responses := s.responses ++ [⟨2, 0⟩] }) ∧
    (s.phase ≠ .idle →
      exec (.rdh 0) s = .next { s with responses := s.responses ++ [⟨0, s.h.a⟩] } ∧
      exec (.rdh 1) s = .next { s with responses := s.responses ++ [⟨0, s.h.b⟩] } ∧
      exec (.rdh 2) s = .next { s with responses := s.responses ++ [⟨0, s.h.c⟩] } ∧
      exec (.rdh 3) s = .next { s with responses := s.responses ++ [⟨0, s.h.d⟩] })

/-- R172: `RDD j` (`0x5000 | (j << 8)`): `SEQ` outside phase `DONE`; else byte `j mod 4` of word `H[j div 4]`, zero-extended, and
nothing else changes. -/
def Obligations.RddResult : Prop :=
  ∀ (s : State) (j : BitVec 4),
    encode (.rdd j) = 0x5000 ||| (j.setWidth 16 <<< 8) ∧
    (s.phase ≠ .done → exec (.rdd j) s = .next { s with
      err := { s.err with seq := true }, responses := s.responses ++ [⟨2, 0⟩] }) ∧
    (s.phase = .done →
      let data : Word :=
        ([s.h.a, s.h.b, s.h.c, s.h.d].getD (j.toNat / 4) 0 >>> (8 * (j.toNat % 4))) &&& 0xFF
      exec (.rdd j) s = .next { s with responses := s.responses ++ [⟨0, data⟩] } ∧
      data.extractLsb' 8 24 = 0)

/-- R173, R29: `RDS` (`0x6000`), in every phase, responds `STATUS` with each field at its bits and clears nothing. -/
def Obligations.RdsResult : Prop :=
  encode .rds = 0x6000 ∧ ∀ s : State, ∃ data : Word,
    exec .rds s = .next { s with responses := s.responses ++ [⟨0, data⟩] } ∧
    data.extractLsb' 0 2 = (match s.phase with | .idle => 0#2 | .opened => 1#2 | .done => 2#2) ∧
    data.extractLsb' 2 2 = 0 ∧
    data.getLsbD 4 = s.err.ill ∧ data.getLsbD 5 = s.err.seq ∧
    data.getLsbD 6 = s.err.empty ∧ data.getLsbD 7 = s.err.ovf ∧
    data.extractLsb' 8 24 = 0

/-- R170: a completed readout writes nothing but its response and gives the same answer when repeated; a
refused one writes one flag. -/
def Obligations.ReadoutsWriteNothing : Prop :=
  ∀ (c : Instr) (s : State), (c = .rds ∨ (∃ i, c = .rdh i) ∨ ∃ j, c = .rdd j) →
    ∃ t, exec c s = .next t ∧
      ((∃ d, t = { s with responses := s.responses ++ [⟨0, d⟩] } ∧
          exec c t = .next { t with responses := t.responses ++ [⟨0, d⟩] }) ∨
        ∃ k, t = { s with
          err := s.err.set k, responses := s.responses ++ [⟨k.code, 0⟩] })

/-- R60, R175: the digest is sixteen bytes; byte `j` is byte `j mod 4`, counted from the least significant,
of word `j div 4` of the State in the order A, B, C, D; and it is what `RDD j` reads, zero-extended. -/
def Obligations.DigestByteView : Prop :=
  ∀ q : Quad, (digestBytes q).length = 16 ∧ ∀ j, j < 16 →
    let b : Byte := BitVec.ofNat 8 (([q.a, q.b, q.c, q.d].getD (j / 4) 0).toNat >>> (8 * (j % 4)))
    (digestBytes q).getD j 0 = b ∧ digestByte q (BitVec.ofNat 4 j) = b.setWidth 32

/-! ## Errors -/

/-- R187: the commands that a phase does not accept set `ERR.SEQ`, respond `(SEQ, 0)` and change nothing
else. -/
def Obligations.SeqErrors : Prop :=
  ∀ (s : State) (c : Instr),
    (((∃ v, c = .pushb v) ∨ c = .final) ∧ s.phase ≠ .opened ∨
      (∃ i, c = .rdh i) ∧ s.phase = .idle ∨
      (∃ j, c = .rdd j) ∧ s.phase ≠ .done) →
    exec c s = .next { s with
      err := { s.err with seq := true }, responses := s.responses ++ [⟨2, 0⟩] }

/-- R190: at `LEN = 2^61 - 1` a push sets `ERR.OVF`, responds `(OVF, 0)` and changes nothing else, and the host
may still close the message and get its true digest. -/
def Obligations.OverflowRefusedThenFinal : Prop :=
  ∀ (s : State) (v : Byte), s.phase = .opened → s.len.toNat = 2 ^ 61 - 1 →
    ∃ u, exec (.pushb v) s = .next u ∧
      u = { s with err := { s.err with ovf := true }, responses := s.responses ++ [⟨4, 0⟩] } ∧
      ∃ t, exec .final u = .next t ∧ t.phase = .done ∧ t.responses = u.responses ++ [⟨0, 0⟩] ∧
        ∀ m, Holds s m → Closed t m

/-- R191: one command raises at most one error, the first that applies: `ILL`, then `SEQ`, then `EMPTY` or
`OVF`. -/
def Obligations.ErrorPriority : Prop :=
  (∀ (s : State) w rest why, s.pending = .command w :: rest → decode w = .illegal why →
    ∃ t, step s = .next t ∧ t.err = s.err.set .ill ∧ t.responses = s.responses ++ [⟨1, 0⟩]) ∧
  (∀ s : State, s.phase ≠ .opened → s.len = 0 →
    ∃ t, exec .final s = .next t ∧ t.err = s.err.set .seq ∧ t.responses = s.responses ++ [⟨2, 0⟩]) ∧
  (∀ (s : State) v, s.phase ≠ .opened → s.len.toNat = 2 ^ 61 - 1 →
    ∃ t, exec (.pushb v) s = .next t ∧ t.err = s.err.set .seq ∧
      t.responses = s.responses ++ [⟨2, 0⟩]) ∧
  ∀ (c : Instr) (s : State), ∃ t, exec c s = .next t ∧
    ((c = .init ∧ t.err = Errors.clear) ∨ t.err = s.err ∨ ∃ k, t.err = s.err.set k)

/-- R150, R155, R189: a command either completes with `(OK, data)` or raises one error, and then it has
written that flag, its response `(code, 0)` and, for `EMPTY` only, `PHASE`. -/
def Obligations.RaisesWriteNothingElse : Prop :=
  ∀ (c : Instr) (s : State), ∃ t, exec c s = .next t ∧ t.pending = s.pending ∧
    ((∃ d, t.responses = s.responses ++ [⟨0, d⟩]) ∨
      ∃ k, t = { s with
        err := s.err.set k
        phase := if k = .empty then .idle else s.phase
        responses := s.responses ++ [⟨k.code, 0⟩] })

/-- R154: for each command and phase, the response code and the phase after it; an illegal word is answered
`ILL` and keeps the phase. -/
def Obligations.PhaseTable : Prop :=
  (∀ (c : Instr) (s : State), ∃ t code data, exec c s = .next t ∧
    t.responses = s.responses ++ [⟨code, data⟩] ∧
    (code, t.phase) =
      match c, s.phase with
      | .init, _ => (0#4, .opened)
      | .pushb _, .opened => if s.len.toNat = 2 ^ 61 - 1 then (4#4, .opened) else (0#4, .opened)
      | .pushb _, p => (2#4, p)
      | .final, .opened => if s.len = 0 then (3#4, .idle) else (0#4, .done)
      | .final, p => (2#4, p)
      | .rdh _, .idle => (2#4, .idle)
      | .rdh _, p => (0#4, p)
      | .rdd _, .done => (0#4, .done)
      | .rdd _, p => (2#4, p)
      | .rds, p => (0#4, p)) ∧
  ∀ (s : State) w rest why, s.pending = .command w :: rest → decode w = .illegal why →
    ∃ t data, step s = .next t ∧ t.responses = s.responses ++ [⟨1, data⟩] ∧ t.phase = s.phase

/-- R28, R192: a flag once set stays set through every step but `INIT` and reset, which clear all four. The form
of the reset event is the model's (log entry 9). -/
def Obligations.FlagsSticky : Prop :=
  ∀ s t : State, step s = .next t →
    (∀ k, s.err.flag k = true → t.err.flag k = true) ∨
    ((∀ k, t.err.flag k = false) ∧
      ∃ rest, (∃ c, s.pending = .reset c :: rest) ∨ s.pending = .command (encode .init) :: rest)

/-- R28: no command reads the flags but `RDS`: with other flags the same command computes the same state and
gives the same response. -/
def Obligations.FlagsAffectNoCommand : Prop :=
  ∀ (c : Instr) (s : State) (e : Errors),
    ∃ t u, exec c s = .next t ∧ exec c { s with err := e } = .next u ∧
      SameComputation t u ∧ t.pending = u.pending ∧ (c ≠ .rds → t.responses = u.responses)

/-! ## Who writes what -/

/-- R21: `H` changes only by `INIT`, by a push that fills the block, and by a `FINAL` that completes. -/
def Obligations.StateWordsWrittenOnlyByInitAndFold : Prop :=
  ∀ (c : Instr) (s t : State), exec c s = .next t → t.h ≠ s.h →
    (c = .init ∧ t.h = ⟨0x67452301, 0xefcdab89, 0x98badcfe, 0x10325476⟩) ∨
    ((∃ v, c = .pushb v) ∧ s.phase = .opened ∧ (fill s.len).toNat = 63 ∧
      t.responses = s.responses ++ [⟨0, 0⟩]) ∨
    (c = .final ∧ s.phase = .opened ∧ t.phase = .done)

/-- R25: `INIT` writes `LEN` 0, each accepted push adds one, nothing else writes it; and the fill and the bit
length are `LEN mod 64` and `8 * LEN`, which fits 64 bits. -/
def Obligations.LengthCounter : Prop :=
  (∀ (c : Instr) (s : State), ∃ t, exec c s = .next t ∧
    t.len.toNat =
      match c with
      | .init => 0
      | .pushb _ =>
        if s.phase = .opened ∧ s.len.toNat < 2 ^ 61 - 1 then s.len.toNat + 1 else s.len.toNat
      | _ => s.len.toNat) ∧
  ∀ len : BitVec 61, (fill len).toNat = len.toNat % 64 ∧ (bitLength len).toNat = 8 * len.toNat ∧
    8 * len.toNat ≤ 2 ^ 64 - 8

/-- R52: a byte written into `BUF` reads back and no other byte changes; the command that stores one is
`PUSHB`, at the fill's offset; every other change of a byte of `BUF` is to zero. -/
def Obligations.BufferWrites : Prop :=
  (∀ (m : Memory) (j : BitVec 6) (v : Byte) (a : Nat),
    Memory.read (Memory.write m j v) a = if a = j.toNat then v else Memory.read m a) ∧
  ∀ (c : Instr) (s t : State) (a : Nat), exec c s = .next t →
    Memory.read t.buf a ≠ Memory.read s.buf a →
    Memory.read t.buf a = 0 ∨
      (c = .pushb (Memory.read t.buf a) ∧ a = (fill s.len).toNat ∧ s.phase = .opened)

/-! ## Invariants -/

/-- R32, R33: the reset state has the invariant and the values the spec gives: `IDLE`, flags clear, `STATUS`
zero. -/
def Obligations.InvAtReset : Prop :=
  Inv State.reset ∧ MessageInv State.reset ∧ State.reset.phase = .idle ∧
    State.reset.err = ⟨false, false, false, false⟩ ∧ State.reset.status = 0

/-- R32, R76, R213: every step keeps the invariant: the canonical buffer, no compression in progress between
commands, the zeros of phases `OPEN` and `DONE`, and responses as R76 allows them. The canonical form and the
absent working registers are the model's form of the state (log entries 2 and 3). -/
def Obligations.StepKeepsInv : Prop :=
  ∀ s t : State, Inv s → step s = .next t → Inv t

/-- R32 I2, I3: every step keeps it that an open engine holds a message (its complete blocks folded into `H`,
the rest in `BUF`) and a finished one the digest of a message. -/
def Obligations.StepKeepsMessage : Prop :=
  ∀ s t : State, MessageInv s → step s = .next t → MessageInv t

/-! ## The computation -/

/-- R152, R32 I2, I5: `INIT` opens the empty message and an accepted push appends its byte. -/
def Obligations.PushbAppends : Prop :=
  (∀ s : State, ∃ t, exec .init s = .next t ∧ Holds t []) ∧
  ∀ (s : State) (m : List Byte) (v : Byte), Holds s m → m.length < 2 ^ 61 - 1 →
    ∃ t, exec (.pushb v) s = .next t ∧ Holds t (m ++ [v]) ∧
      t.err = s.err ∧ t.responses = s.responses ++ [⟨0, 0⟩]

/-- R153, R100, R133: `FINAL` on an open message of at least one byte leaves `H = md5_state(m)`: the streaming
padder compresses exactly the blocks of `pad(m)`. -/
def Obligations.FinalGivesDigestOfMessage : Prop :=
  ∀ (s : State) (m : List Byte), Holds s m → m ≠ [] →
    ∃ t, exec .final s = .next t ∧ Closed t m ∧ t.err = s.err ∧
      t.responses = s.responses ++ [⟨0, 0⟩]

/-- R156: from any engine state, `INIT`, one `PUSHB` per byte, `FINAL` and sixteen `RDD`s are all answered `OK`,
end with the message's State and clear flags, and return the sixteen bytes of its digest. -/
def Obligations.CommandLevelCorrectness : Prop :=
  ∀ (s : State) (m : List Byte) (rest : List HostEvent),
    1 ≤ m.length → m.length ≤ 2 ^ 61 - 1 →
    s.pending = present (messageCommands m) ++
      (present ((List.range 16).map fun j => .rdd (BitVec.ofNat 4 j)) ++ rest) →
    ∃ t u, RunsTo (m.length + 2) s t ∧ Closed t m ∧ t.err = Errors.clear ∧
      t.responses = s.responses ++ List.replicate (m.length + 2) ⟨0, 0⟩ ∧
      RunsTo 16 t u ∧ Closed u m ∧ u.err = Errors.clear ∧ u.pending = rest ∧
      u.responses = t.responses ++ (digestBytes (md5State m)).map fun b => ⟨0, b.setWidth 32⟩

/-- R156, R188: from any engine state, `INIT` then `FINAL` is answered `OK` then `EMPTY` and ends in phase `IDLE`
with only `ERR.EMPTY` set. -/
def Obligations.EmptyMessageRun : Prop :=
  ∀ (s : State) (rest : List HostEvent),
    s.pending = present (messageCommands []) ++ rest →
    ∃ t, RunsTo 2 s t ∧ t.phase = .idle ∧ t.err = ⟨false, false, true, false⟩ ∧
      t.pending = rest ∧ t.responses = s.responses ++ [⟨0, 0⟩, ⟨3, 0⟩]

/-- R156: readouts and refused commands between the pushes, and anything but `INIT` after `FINAL`, do not
disturb the message or its digest. -/
def Obligations.InterleavedCommandsHarmless : Prop :=
  (∀ (s : State) (m : List Byte) (c : Instr), Holds s m →
    (c = .rds ∨ (∃ i, c = .rdh i) ∨ ∃ j, c = .rdd j) → ∃ t, exec c s = .next t ∧ Holds t m) ∧
  (∀ (s : State) (m : List Byte) (c : Instr), Closed s m → c ≠ .init →
    ∃ t, exec c s = .next t ∧ Closed t m) ∧
  ∀ (s : State) (m : List Byte) w rest, s.pending = .command w :: rest → legalWord w = false →
    ∃ t, step s = .next t ∧ (Holds s m → Holds t m) ∧ (Closed s m → Closed t m)

/-- R151, R156, R217: after `INIT` nothing depends on what was before: two engines in any two states, given the
same presentation that begins with `INIT`, give the same responses from then on. -/
def Obligations.InitForgetsThePast : Prop :=
  ∀ (s t : State) (rest : List HostEvent),
    s.pending = .command (encode .init) :: rest → t.pending = .command (encode .init) :: rest →
    ∀ k, ∃ s' t' out, RunsTo (k + 1) s s' ∧ RunsTo (k + 1) t t' ∧
      s'.responses = s.responses ++ out ∧ t'.responses = t.responses ++ out ∧
      s'.phase = t'.phase ∧ s'.err = t'.err ∧
      (s'.phase ≠ .idle → s'.h = t'.h ∧ s'.len = t'.len ∧ s'.buf = t'.buf)

/-- R33, R187: what `H`, `LEN` and `BUF` hold in phase `IDLE` cannot be told by any run: two idle engines with
the same flags and the same presentation give the same responses for ever, whatever those registers
hold. So the reset values that log entries 1 and 2 choose are unobservable. -/
def Obligations.IdleContentsUnobservable : Prop :=
  ∀ s t : State, s.phase = .idle → t.phase = .idle → s.err = t.err → s.pending = t.pending →
    ∀ k, ∃ s' t' out, RunsTo k s s' ∧ RunsTo k t t' ∧
      s'.responses = s.responses ++ out ∧ t'.responses = t.responses ++ out ∧
      s'.phase = t'.phase ∧ s'.err = t'.err

/-! ## The Compressor and the Padder -/

/-- R112 to R115: the nonlinear functions, bit by bit; `G(x,y,z) = F(z,x,y)`. -/
def Obligations.RoundFunctionBits : Prop :=
  ∀ x y z : Word, fnG x y z = fnF z x y ∧ ∀ j, j < 32 →
    (fnF x y z).getLsbD j = (if x.getLsbD j then y.getLsbD j else z.getLsbD j) ∧
    (fnG x y z).getLsbD j = (if z.getLsbD j then x.getLsbD j else y.getLsbD j) ∧
    (fnHx x y z).getLsbD j = (x.getLsbD j ^^ (y.getLsbD j ^^ z.getLsbD j)) ∧
    (fnI x y z).getLsbD j = (y.getLsbD j ^^ (x.getLsbD j || !z.getLsbD j))

/-- R117, R118: the word index and the rotate amount of each step. -/
def Obligations.StepTables : Prop :=
  ∀ i, i < 64 →
    tableK i =
      (if i < 16 then i
      else if i < 32 then (1 + 5 * i) % 16
      else if i < 48 then (5 + 3 * i) % 16
      else (7 * i) % 16) ∧
    tableS i = (([[7, 12, 17, 22], [5, 9, 14, 20], [4, 11, 16, 23], [6, 10, 15, 21]] : List (List Nat)).getD
      (i / 16) []).getD (i % 4) 0

/-- R119: the additive constant of step `i` is the integer part of `2^32 * |sin(i + 1)|`, radians, with `i`
counted across the whole block, so all 64 differ. -/
def Obligations.AdditiveConstantsAreSines : Prop :=
  (∀ i : Nat, i < 64 → ((tableT i).toNat : ℤ) = ⌊(2 : ℝ) ^ 32 * |Real.sin ((i : ℝ) + 1)|⌋) ∧
  ∀ i j, i < 64 → j < 64 → tableT i = tableT j → i = j

/-- R122: the rotate moves bit `j` to bit `(j + s) mod 32`, for every amount `0 < s < 32`; the amounts used
lie in 4..23. -/
def Obligations.RotateMovesBits : Prop :=
  (∀ (x : Word) (s j : Nat), 0 < s → s < 32 → j < 32 →
    (rotl32 x s).getLsbD ((j + s) % 32) = x.getLsbD j) ∧
  ∀ i, i < 64 → 4 ≤ tableS i ∧ tableS i ≤ 23

/-- R123, R124, R127: LOADW, STEP and FOLD, each with all it writes. At `i = 63` the clause on the step index
says that the 6-bit index becomes 0: that is the model's choice (log entry 4), where R24 gives the index no
value after STEP 63 and R26 says that it never wraps. That FOLD leaves no working registers is the model's
form of R127 (log entry 3). -/
def Obligations.CompressionMicroOperations : Prop :=
  (∀ s : State, loadw s = { s with work := some ⟨s.h, 0⟩ }) ∧
  (∀ (s : State) (a b c d : Word) (i : BitVec 6), s.work = some ⟨⟨a, b, c, d⟩, i⟩ →
    let f := match i.toNat / 16 with
      | 0 => fnF b c d
      | 1 => fnG b c d
      | 2 => fnHx b c d
      | _ => fnI b c d
    let sum := ((a + f) + Memory.word s.buf (tableK i.toNat)) + tableT i.toNat
    microStep s = { s with work := some ⟨⟨d, b + rotl32 sum (tableS i.toNat), b, c⟩, i + 1⟩ }) ∧
  ∀ (s : State) (a b c d : Word) (i : BitVec 6), s.work = some ⟨⟨a, b, c, d⟩, i⟩ →
    foldw s = { s with
      h := ⟨s.h.a + a, s.h.b + b, s.h.c + c, s.h.d + d⟩
      work := none }

/-- R125: the rotating form of the steps and the form on four fixed registers agree after every step, up to
the rotation of the names, and after all 64 steps exactly. -/
def Obligations.FixedRegisterForm : Prop :=
  ∀ (q : Quad) (M : Nat → Word),
    (∀ n, n ≤ 64 →
      let r := fixedSteps n 0 q M
      roundSteps n 0 q M =
        match n % 4 with
        | 0 => r
        | 1 => ⟨r.d, r.a, r.b, r.c⟩
        | 2 => ⟨r.c, r.d, r.a, r.b⟩
        | _ => ⟨r.b, r.c, r.d, r.a⟩) ∧
    rounds q M = fixedSteps 64 0 q M

/-- R53, R111: byte `i` of message word `k` is byte `4k + i` of the block, for the buffer and for a block given
as a sequence. -/
def Obligations.ScheduleLittleEndian : Prop :=
  (∀ (m : Memory) (k i : Nat), k < 16 → i < 4 →
    (Memory.word m k).extractLsb' (8 * i) 8 = Memory.read m (4 * k + i)) ∧
  ∀ (blk : List Byte) (k i : Nat), k < 16 → i < 4 →
    (blockWord blk k).extractLsb' (8 * i) 8 = blk.getD (4 * k + i) 0

/-- R55, R57: the trailer, once written, is seen as words 14 and 15: the low and the high half of `8 * LEN`;
the other bytes of the buffer are kept. -/
def Obligations.TrailerAsWords : Prop :=
  ∀ s : State,
    (Memory.word (writeTrailer s).buf 14).toNat = 8 * s.len.toNat % 2 ^ 32 ∧
    (Memory.word (writeTrailer s).buf 15).toNat = 8 * s.len.toNat / 2 ^ 32 ∧
    ∀ a, a < 56 → Memory.read (writeTrailer s).buf a = Memory.read s.buf a

/-- R91: the padded length is the smallest multiple of 64 that is at least `L + 9`, by cases of the fill. -/
def Obligations.PaddedLength : Prop :=
  ∀ m : List Byte,
    let L := m.length
    let n := L % 64
    (pad m).length % 64 = 0 ∧ L + 9 ≤ (pad m).length ∧
    (∀ P, P % 64 = 0 → L + 9 ≤ P → (pad m).length ≤ P) ∧
    (n ≤ 55 → (pad m).length = L - n + 64 ∧ (pad m).length / 64 = L / 64 + 1) ∧
    (56 ≤ n → (pad m).length = L - n + 128 ∧ (pad m).length / 64 = L / 64 + 2)

/-- R92 to R94: the marker follows the message, zeros follow the marker (how many depends on the fill), and
the last eight bytes are the bit length, least significant byte first. -/
def Obligations.PadLayout : Prop :=
  ∀ m : List Byte, 8 * m.length < 2 ^ 64 →
    let L := m.length
    let n := L % 64
    let P := (pad m).length
    (pad m).getD L 0 = 0x80 ∧
    (∀ j, L + 1 ≤ j → j + 9 ≤ P → (pad m).getD j 0 = 0) ∧
    (P - L - 9 = if n ≤ 55 then 55 - n else 119 - n) ∧
    ∀ i, i < 8 → (pad m).getD (P - 8 + i) 0 = BitVec.ofNat 8 ((8 * L) >>> (8 * i))

/-- R95: the invariants of `pad`: length, prefix, bit count, and that no two messages have one padding. -/
def Obligations.PadProperties : Prop :=
  (∀ m : List Byte,
    (pad m).length % 64 = 0 ∧ m.length + 9 ≤ (pad m).length ∧ (pad m).length ≤ m.length + 72 ∧
    (pad m).take m.length = m) ∧
  (∀ m : List Byte, 8 * m.length < 2 ^ 64 →
    ((List.range 8).map fun i =>
      ((pad m).getD ((pad m).length - 8 + i) 0).toNat * 2 ^ (8 * i)).sum = 8 * m.length) ∧
  ∀ m m' : List Byte, 8 * m.length < 2 ^ 64 → 8 * m'.length < 2 ^ 64 → pad m = pad m' → m = m'
end

