-- ==== Sys2Proof/Laws/Memory.lean ====
section
/-!
SUPPORT. The laws of `BUF`: a read after a write, and the canonical form, kept by every operation.
-/

namespace Sys2Proof.Machine

theorem Memory.read_erase (m : Memory) (j a : Nat) :
    (m.erase j).read a = if a = j then Config.unlistedByte else m.read a := by
  induction m with
  | nil => simp [Memory.erase, Memory.read]
  | cons c rest ih =>
    obtain ⟨b, v⟩ := c
    by_cases hb : b = j
    · subst hb
      rw [Memory.erase, if_pos rfl, ih]
      by_cases ha : a = b
      · simp [ha]
      · simp [Memory.read, ha, Ne.symm ha]
    · by_cases ha : a = j
      · subst ha; simp [Memory.erase, Memory.read, ih, hb]
      · simp [Memory.erase, Memory.read, ih, hb, ha]

theorem Memory.read_insert (m : Memory) (j : Nat) (v : Byte) (a : Nat)
    (h : m.read j = Config.unlistedByte) (hm : ∀ c ∈ m, c.1 ≠ j) :
    (m.insert j v).read a = if a = j then v else m.read a := by
  induction m with
  | nil =>
    by_cases ha : a = j
    · simp [Memory.insert, Memory.read, ha]
    · simp [Memory.insert, Memory.read, ha, Ne.symm ha]
  | cons c rest ih =>
    obtain ⟨b, w⟩ := c
    have hb : b ≠ j := hm (b, w) (by simp)
    have hr : Memory.read rest j = Config.unlistedByte := by simpa [Memory.read, hb] using h
    by_cases hj : j < b
    · by_cases ha : a = j
      · simp [Memory.insert, Memory.read, hj, ha]
      · simp [Memory.insert, Memory.read, hj, ha, Ne.symm ha]
    · have ih' := ih hr (fun c hc => hm c (by simp [hc]))
      by_cases ha : a = j
      · subst ha; simp [Memory.insert, Memory.read, hj, ih', hb]
      · simp [Memory.insert, Memory.read, hj, ih', ha]

theorem Memory.mem_erase (m : Memory) (j : Nat) (c : Host.Cell) :
    c ∈ m.erase j ↔ c ∈ m ∧ c.1 ≠ j := by
  induction m with
  | nil => simp [Memory.erase]
  | cons d rest ih =>
    obtain ⟨b, w⟩ := d
    by_cases hb : b = j
    · simp only [Memory.erase, hb, ↓reduceIte, ih, List.mem_cons]
      constructor
      · rintro ⟨h1, h2⟩; exact ⟨.inr h1, h2⟩
      · rintro ⟨rfl | h1, h2⟩
        · exact absurd rfl h2
        · exact ⟨h1, h2⟩
    · simp only [Memory.erase, hb, ↓reduceIte, ih, List.mem_cons]
      constructor
      · rintro (rfl | ⟨h1, h2⟩)
        · exact ⟨.inl rfl, hb⟩
        · exact ⟨.inr h1, h2⟩
      · rintro ⟨rfl | h1, h2⟩
        · exact .inl rfl
        · exact .inr ⟨h1, h2⟩

/-- A read after a write (R52): the byte written at that offset, every other byte as before. -/
theorem Memory.read_write (m : Memory) (j : BitVec 6) (v : Byte) (a : Nat) :
    (m.write j v).read a = if a = j.toNat then v else m.read a := by
  unfold Memory.write
  split
  · next h => rw [Memory.read_erase, h]
  · rw [Memory.read_insert _ _ _ _ (by simp [Memory.read_erase])
      (fun c hc => ((Memory.mem_erase m _ c).1 hc).2), Memory.read_erase]
    by_cases ha : a = j.toNat <;> simp [ha]

@[simp] theorem Memory.read_zeros (a : Nat) : Memory.zeros.read a = 0 := rfl

@[simp] theorem Memory.zeros_wf : Memory.zeros.wf = true := rfl

/-- The canonical form, as two properties of the list. -/
theorem Memory.wf_iff (m : Memory) :
    m.wf = true ↔ m.Pairwise (fun c d => c.1 < d.1) ∧
      ∀ c ∈ m, c.1 < 64 ∧ c.2 ≠ Config.unlistedByte := by
  induction m with
  | nil => simp [Memory.wf]
  | cons c rest ih =>
    obtain ⟨a, v⟩ := c
    cases rest with
    | nil => simp [Memory.wf]
    | cons d rest =>
      obtain ⟨b, w⟩ := d
      rw [Memory.wf, Bool.and_eq_true, Bool.and_eq_true, ih, decide_eq_true_eq, bne_iff_ne]
      constructor
      · rintro ⟨⟨hab, hv⟩, hp, hc⟩
        refine ⟨List.pairwise_cons.2 ⟨?_, hp⟩, ?_⟩
        · intro d hd
          rcases List.mem_cons.1 hd with rfl | hd
          · exact hab
          · exact lt_trans hab ((List.pairwise_cons.1 hp).1 d hd)
        · intro d hd
          rcases List.mem_cons.1 hd with rfl | hd
          · exact ⟨lt_trans hab (hc (b, w) (by simp)).1, hv⟩
          · exact hc d hd
      · rintro ⟨hp, hc⟩
        obtain ⟨h1, h2⟩ := List.pairwise_cons.1 hp
        exact ⟨⟨h1 (b, w) (by simp), (hc (a, v) (by simp)).2⟩, h2,
          fun d hd => hc d (List.mem_cons_of_mem _ hd)⟩

theorem Memory.erase_wf (m : Memory) (j : Nat) (h : m.wf = true) : (m.erase j).wf = true := by
  rw [Memory.wf_iff] at h ⊢
  obtain ⟨hp, hc⟩ := h
  refine ⟨?_, fun c hm => hc c ((Memory.mem_erase m j c).1 hm).1⟩
  clear hc
  induction m with
  | nil => simp [Memory.erase]
  | cons d rest ih =>
    obtain ⟨b, w⟩ := d
    obtain ⟨h1, h2⟩ := List.pairwise_cons.1 hp
    by_cases hb : b = j
    · simpa [Memory.erase, hb] using ih h2
    · simp only [Memory.erase, hb, ↓reduceIte]
      exact List.pairwise_cons.2 ⟨fun c hm => h1 c ((Memory.mem_erase rest j c).1 hm).1, ih h2⟩

theorem Memory.mem_insert (m : Memory) (j : Nat) (v : Byte) (c : Host.Cell) :
    c ∈ m.insert j v ↔ c = (j, v) ∨ c ∈ m := by
  induction m with
  | nil => simp [Memory.insert]
  | cons d rest ih =>
    obtain ⟨b, w⟩ := d
    by_cases hj : j < b
    · simp [Memory.insert, hj]
    · simp only [Memory.insert, hj, ↓reduceIte, List.mem_cons, ih]
      exact or_left_comm

theorem Memory.insert_wf (m : Memory) (j : Nat) (v : Byte) (h : m.wf = true) (hj : j < 64)
    (hv : v ≠ Config.unlistedByte) (hm : ∀ c ∈ m, c.1 ≠ j) : (m.insert j v).wf = true := by
  rw [Memory.wf_iff] at h ⊢
  obtain ⟨hp, hc⟩ := h
  refine ⟨?_, fun c hmem => ?_⟩
  · clear hc
    induction m with
    | nil => simp [Memory.insert]
    | cons d rest ih =>
      obtain ⟨b, w⟩ := d
      obtain ⟨h1, h2⟩ := List.pairwise_cons.1 hp
      by_cases hb : j < b
      · simp only [Memory.insert, hb, ↓reduceIte]
        refine List.pairwise_cons.2 ⟨fun c hmem => ?_, hp⟩
        rcases List.mem_cons.1 hmem with rfl | hmem
        · exact hb
        · exact lt_trans hb (h1 c hmem)
      · simp only [Memory.insert, hb, ↓reduceIte]
        refine List.pairwise_cons.2
          ⟨fun c hmem => ?_, ih (fun c hmem => hm c (List.mem_cons_of_mem _ hmem)) h2⟩
        rcases (Memory.mem_insert rest j v c).1 hmem with rfl | hmem
        · exact lt_of_le_of_ne (not_lt.1 hb) (hm (b, w) (by simp))
        · exact h1 c hmem
  · rcases (Memory.mem_insert m j v c).1 hmem with rfl | hmem
    · exact ⟨hj, hv⟩
    · exact hc c hmem

/-- A write keeps the canonical form. -/
theorem Memory.write_wf (m : Memory) (j : BitVec 6) (v : Byte) (h : m.wf = true) :
    (m.write j v).wf = true := by
  unfold Memory.write
  split
  · exact Memory.erase_wf m _ h
  · next hv =>
    exact Memory.insert_wf _ _ _ (Memory.erase_wf m _ h) j.isLt hv
      (fun c hc => ((Memory.mem_erase m _ c).1 hc).2)

/-- `BUF` is 64 bytes (R30). -/
@[simp] theorem Memory.bytes_length (m : Memory) : m.bytes.length = 64 := by
  simp [Memory.bytes]

/-- Byte `j` of the block is `BUF[j]` (R52). -/
theorem Memory.bytes_getD (m : Memory) (j : Nat) (h : j < 64) : m.bytes.getD j 0 = m.read j := by
  simp [Memory.bytes, List.getD, h]

end Sys2Proof.Machine
end

