-- ==== Sys2Proof/Laws/State.lean ====
section
/-!
SUPPORT. One lemma per field for each named update of the state, and of the flags.
-/

namespace Sys2Proof.Machine

variable (s : State) (c : BitVec 4) (d : Word)

@[simp] theorem State.answer_h : (s.answer c d).h = s.h := rfl
@[simp] theorem State.answer_len : (s.answer c d).len = s.len := rfl
@[simp] theorem State.answer_buf : (s.answer c d).buf = s.buf := rfl
@[simp] theorem State.answer_phase : (s.answer c d).phase = s.phase := rfl
@[simp] theorem State.answer_err : (s.answer c d).err = s.err := rfl
@[simp] theorem State.answer_work : (s.answer c d).work = s.work := rfl
@[simp] theorem State.answer_pending : (s.answer c d).pending = s.pending := rfl
@[simp] theorem State.answer_responses :
    (s.answer c d).responses = s.responses ++ [⟨c, d⟩] := rfl

variable (k : ErrKind)

@[simp] theorem State.raised_h : (s.raised k).h = s.h := rfl
@[simp] theorem State.raised_len : (s.raised k).len = s.len := rfl
@[simp] theorem State.raised_buf : (s.raised k).buf = s.buf := rfl
@[simp] theorem State.raised_phase : (s.raised k).phase = s.phase := rfl
@[simp] theorem State.raised_err : (s.raised k).err = s.err.set k := rfl
@[simp] theorem State.raised_work : (s.raised k).work = s.work := rfl
@[simp] theorem State.raised_pending : (s.raised k).pending = s.pending := rfl
@[simp] theorem State.raised_responses :
    (s.raised k).responses = s.responses ++ [⟨k.code, 0⟩] := rfl

@[simp] theorem State.applyReset_h : s.applyReset.h = Config.resetH := rfl
@[simp] theorem State.applyReset_len : s.applyReset.len = Config.resetLen := rfl
@[simp] theorem State.applyReset_buf : s.applyReset.buf = [] := rfl
@[simp] theorem State.applyReset_phase : s.applyReset.phase = .idle := rfl
@[simp] theorem State.applyReset_err : s.applyReset.err = Errors.clear := rfl
@[simp] theorem State.applyReset_work : s.applyReset.work = none := rfl
@[simp] theorem State.applyReset_pending : s.applyReset.pending = s.pending := rfl
@[simp] theorem State.applyReset_responses : s.applyReset.responses = s.responses := rfl

@[simp] theorem State.reset_phase : State.reset.phase = .idle := rfl
@[simp] theorem State.reset_err : State.reset.err = Errors.clear := rfl
@[simp] theorem State.reset_buf : State.reset.buf = [] := rfl
@[simp] theorem State.reset_work : State.reset.work = none := rfl
@[simp] theorem State.reset_pending : State.reset.pending = [] := rfl
@[simp] theorem State.reset_responses : State.reset.responses = [] := rfl

/-- A raise sets its own flag (R189). -/
@[simp] theorem Errors.flag_set_self (e : Errors) (k : ErrKind) : (e.set k).flag k = true := by
  cases k <;> rfl

/-- A raise leaves the other flags alone (R189). -/
theorem Errors.flag_set_other (e : Errors) {k k' : ErrKind} (h : k' ≠ k) :
    (e.set k).flag k' = e.flag k' := by
  cases k <;> cases k' <;> first | rfl | exact absurd rfl h

/-- No raise clears a flag (R28, R192). -/
theorem Errors.flag_set_mono (e : Errors) (k k' : ErrKind) (h : e.flag k' = true) :
    (e.set k).flag k' = true := by
  by_cases hk : k' = k
  · subst hk; simp
  · rw [Errors.flag_set_other e hk, h]

end Sys2Proof.Machine
end

