-- ==== Sys2Proof/Laws/Compressor.lean ====
section
/-!
SUPPORT. What a compression does, once: `doCompress`, run as micro-operations, folds `compress` of the
buffer into `H` and clears the buffer (R128, R134).
-/

namespace Sys2Proof.Machine

/-- Every step uses a word of the block (R117). -/
theorem tableK_lt (i : Nat) : tableK i < 16 := by
  unfold tableK
  split <;> exact Nat.mod_lt _ (by decide)

/-- A step depends on the sixteen message words only (R129). -/
theorem roundStep_congr (i : Nat) (q : Quad) {M N : Nat → Word} (h : ∀ k, k < 16 → M k = N k) :
    roundStep i q M = roundStep i q N := by
  simp [roundStep, stepValue, h _ (tableK_lt i)]

theorem roundSteps_congr (n i : Nat) (q : Quad) {M N : Nat → Word}
    (h : ∀ k, k < 16 → M k = N k) : roundSteps n i q M = roundSteps n i q N := by
  induction n generalizing i q with
  | zero => rfl
  | succ n ih => rw [roundSteps, roundSteps, roundStep_congr i q h, ih]

/-- The last of `n + 1` steps, split off. -/
theorem roundSteps_succ (n i : Nat) (q : Quad) (M : Nat → Word) :
    roundSteps (n + 1) i q M = roundStep (i + n) (roundSteps n i q M) M := by
  induction n generalizing i q with
  | zero => rfl
  | succ n ih =>
    rw [roundSteps, ih (i + 1), roundSteps, show i + 1 + n = i + (n + 1) by omega]

/-- The last of `n + 1` fixed-register steps, split off. -/
theorem fixedSteps_succ (n i : Nat) (r : Quad) (M : Nat → Word) :
    fixedSteps (n + 1) i r M = fixedStep (i + n) (fixedSteps n i r M) M := by
  induction n generalizing i r with
  | zero => rfl
  | succ n ih =>
    rw [fixedSteps, ih (i + 1), fixedSteps, show i + 1 + n = i + (n + 1) by omega]

/-- The schedule read from the buffer is the schedule of its bytes (R53, R111). -/
theorem blockWord_bytes (m : Memory) (k : Nat) (h : k < 16) : blockWord m.bytes k = m.word k := by
  simp only [blockWord, Memory.word]
  rw [m.bytes_getD _ (by omega), m.bytes_getD _ (by omega), m.bytes_getD _ (by omega),
    m.bytes_getD _ (by omega)]

/-- `n` STEPs from step index `i` are `n` steps of the function level (R124, R129). -/
theorem microSteps_eq (n : Nat) (s : State) (q : Quad) (i : BitVec 6)
    (hw : s.work = some ⟨q, i⟩) (hn : i.toNat + n ≤ 64) :
    ∃ i' : BitVec 6, microSteps n s =
      { s with work := some ⟨roundSteps n i.toNat q s.buf.word, i'⟩ } := by
  induction n generalizing s q i with
  | zero =>
    refine ⟨i, ?_⟩
    show s = _
    rw [roundSteps, ← hw]
  | succ n ih =>
    have hm : microStep s = { s with work := some ⟨roundStep i.toNat q s.buf.word, i + 1⟩ } := by
      simp [microStep, hw]
    rw [microSteps, hm, roundSteps]
    rcases Nat.eq_or_lt_of_le hn with h64 | h64
    · rcases Nat.eq_zero_or_pos n with rfl | hpos
      · exact ⟨i + 1, rfl⟩
      · have hi : (i + 1).toNat = i.toNat + 1 := by
          rw [BitVec.toNat_add]; exact Nat.mod_eq_of_lt (by simp; omega)
        obtain ⟨i', h'⟩ := ih { s with work := some ⟨roundStep i.toNat q s.buf.word, i + 1⟩ }
          (roundStep i.toNat q s.buf.word) (i + 1) rfl (by omega)
        exact ⟨i', by rw [h', hi]⟩
    · have hi : (i + 1).toNat = i.toNat + 1 := by
        rw [BitVec.toNat_add]; exact Nat.mod_eq_of_lt (by simp; omega)
      obtain ⟨i', h'⟩ := ih { s with work := some ⟨roundStep i.toNat q s.buf.word, i + 1⟩ }
        (roundStep i.toNat q s.buf.word) (i + 1) rfl (by omega)
      exact ⟨i', by rw [h', hi]⟩

/-- LOADW, `n` STEPs and FOLD add the result of `n` steps into `H` (R123, R124, R127). -/
theorem foldw_microSteps (n : Nat) (hn : n ≤ 64) (s : State) :
    foldw (microSteps n (loadw s)) =
      { s with h := Quad.add s.h (roundSteps n 0 s.h (blockWord s.buf.bytes)), work := none } := by
  obtain ⟨i', h'⟩ := microSteps_eq n (loadw s) s.h 0 rfl (by simpa using hn)
  rw [h', roundSteps_congr n 0 s.h (blockWord_bytes s.buf)]
  simp [foldw, loadw]

/-- One whole compression (R128, R131, R134). -/
theorem doCompress_eq (s : State) :
    doCompress s =
      { s with h := compress s.h s.buf.bytes, buf := Memory.zeros, work := none } := by
  rw [doCompress, foldw_microSteps 64 le_rfl, compress, rounds]

end Sys2Proof.Machine
end

