-- ==== Sys2Proof/Laws/Padder.lean ====
section
/-!
SUPPORT. What ABSORB and PADFIN do, once, in terms of `compress` and the buffer's writes (R98, R99).
-/

namespace Sys2Proof.Machine

/-- ABSORB (R98): overflow; a byte that does not fill the block; a byte that fills it. -/
theorem absorb_eq (v : Byte) (s : State) :
    absorb v s =
      if s.len = Config.maxBytes then .error .ovf
      else if fill s.len = 63 then
        .ok { s with
          h := compress s.h (Memory.bytes (s.buf.write (fill s.len) v))
          len := s.len + 1
          buf := Memory.zeros
          work := none }
      else .ok { s with len := s.len + 1, buf := s.buf.write (fill s.len) v } := by
  unfold absorb
  split
  · rfl
  · by_cases hf : fill s.len = 63
    · simp only [if_pos hf, doCompress_eq]
    · simp only [if_neg hf]

/-- The trailer's bytes, one by one (R94, R99); every other byte is kept. -/
theorem read_writeTrailerFrom (v : BitVec 64) (k i : Nat) (m : Memory) (a : Nat) (h : i + k ≤ 8) :
    (writeTrailerFrom v k i m).read a =
      if 56 + i ≤ a ∧ a < 56 + i + k then le64Byte v (a - 56) else m.read a := by
  induction k generalizing i m with
  | zero =>
    have h' : ¬(56 + i ≤ a ∧ a < 56 + i + 0) := by omega
    rw [writeTrailerFrom, if_neg h']
  | succ k ih =>
    have hj : (BitVec.ofNat 6 (56 + i)).toNat = 56 + i := by
      rw [BitVec.toNat_ofNat]; exact Nat.mod_eq_of_lt (by omega)
    rw [writeTrailerFrom, ih (i + 1) _ (by omega), Memory.read_write, hj]
    by_cases ha : a = 56 + i
    · subst ha
      rw [if_neg (by omega), if_pos rfl, if_pos (by omega)]
      congr 1
      omega
    · rw [if_neg ha]
      by_cases hb : 56 + (i + 1) ≤ a ∧ a < 56 + (i + 1) + k
      · rw [if_pos hb, if_pos (by omega)]
      · rw [if_neg hb, if_neg (by omega)]

/-- Writing the trailer keeps the canonical form. -/
theorem writeTrailerFrom_wf (v : BitVec 64) (k i : Nat) (m : Memory) (h : m.wf = true) :
    (writeTrailerFrom v k i m).wf = true := by
  induction k generalizing i m with
  | zero => exact h
  | succ k ih => exact ih _ _ (Memory.write_wf m _ _ h)

/-- The block as PADFIN closes it: the trailer over a buffer (R99). -/
def lastBlock (s : State) (m : Memory) : List Byte :=
  Memory.bytes (writeTrailerFrom (bitLength s.len) 8 0 m)

/-- The State PADFIN leaves: one compression when the fill is at most 55, two when it is 56 or more
(R99). -/
def paddedH (s : State) : Quad :=
  if 56 ≤ (fill s.len).toNat then
    compress (compress s.h (Memory.bytes (Memory.write s.buf (fill s.len) 0x80)))
      (lastBlock s Memory.zeros)
  else compress s.h (lastBlock s (Memory.write s.buf (fill s.len) 0x80))

/-- PADFIN (R99): `H`, the cleared buffer, and no compression left in progress. -/
theorem padfin_eq (s : State) :
    padfin s = { s with h := paddedH s, buf := Memory.zeros, work := none } := by
  unfold padfin paddedH lastBlock
  by_cases hn : 56 ≤ (fill s.len).toNat
  · simp only [if_pos hn, doCompress_eq, writeTrailer, writeMarker]
  · simp only [if_neg hn, doCompress_eq, writeTrailer, writeMarker]

/-- A block of at most the sequence's length has 64 bytes (R96). -/
theorem blockAt_length (bs : List Byte) (q : Nat) (h : 64 * q + 64 ≤ bs.length) :
    (blockAt bs q).length = 64 := by
  rw [blockAt, List.length_take, List.length_drop]; omega

/-- Byte `j` of block `q` is byte `64q + j` of the sequence (R96). -/
theorem blockAt_getD (bs : List Byte) (q j : Nat) (h : j < 64) :
    (blockAt bs q).getD j 0 = bs.getD (64 * q + j) 0 := by
  simp [blockAt, List.getD, h]

/-- Before any block the State is `IV` (R133). -/
@[simp] theorem stateAfter_zero (bs : List Byte) : stateAfter bs 0 = iv := by simp [stateAfter]

/-- Each block compresses onto the State before it (R133, R135). -/
theorem stateAfter_succ (bs : List Byte) (n : Nat) :
    stateAfter bs (n + 1) = compress (stateAfter bs n) (blockAt bs n) := by
  simp [stateAfter, List.range_succ]

end Sys2Proof.Machine
end

