-- ==== Sys2Proof/Laws/Exec.lean ====
section
/-!
SUPPORT. What each command and each step can do, once: every later proof splits on these.
-/

namespace Sys2Proof.Machine

/-- `INIT` (R151). -/
theorem execInit_eq (s : State) :
    execInit s = .next (State.answer
      { s with h := iv, len := 0, buf := Memory.zeros, err := Errors.clear, phase := .opened }
      okCode 0) := rfl

/-- Each arm of `exec`. -/
@[simp] theorem exec_init (s : State) : exec .init s = execInit s := rfl
@[simp] theorem exec_pushb (v : Byte) (s : State) : exec (.pushb v) s = execPushb v s := rfl
@[simp] theorem exec_final (s : State) : exec .final s = finalWith true s := rfl
@[simp] theorem exec_rdh (i : BitVec 2) (s : State) : exec (.rdh i) s = execRdh i s := rfl
@[simp] theorem exec_rdd (j : BitVec 4) (s : State) : exec (.rdd j) s = execRdd j s := rfl
@[simp] theorem exec_rds (s : State) : exec .rds s = .next (s.answer okCode s.status) := rfl

/-- `PUSHB` (R152): `SEQ`; `OVF`; the byte waits in the buffer; the byte fills the block. -/
theorem execPushb_cases (v : Byte) (s : State) :
    (s.phase ≠ .opened ∧ execPushb v s = .next (s.raised .seq)) ∨
    (s.phase = .opened ∧ s.len = Config.maxBytes ∧ execPushb v s = .next (s.raised .ovf)) ∨
    (s.phase = .opened ∧ s.len ≠ Config.maxBytes ∧ fill s.len ≠ 63 ∧
      execPushb v s = .next (State.answer
        { s with len := s.len + 1, buf := Memory.write s.buf (fill s.len) v } okCode 0)) ∨
    (s.phase = .opened ∧ s.len ≠ Config.maxBytes ∧ fill s.len = 63 ∧
      execPushb v s = .next (State.answer
        { s with
          h := compress s.h (Memory.bytes (Memory.write s.buf (fill s.len) v))
          len := s.len + 1
          buf := Memory.zeros
          work := none } okCode 0)) := by
  unfold execPushb
  rw [absorb_eq]
  by_cases hp : s.phase = .opened
  · rw [if_pos hp]
    by_cases hl : s.len = Config.maxBytes
    · rw [if_pos hl]; exact .inr (.inl ⟨hp, hl, rfl⟩)
    · rw [if_neg hl]
      by_cases hf : fill s.len = 63
      · rw [if_pos hf]; exact .inr (.inr (.inr ⟨hp, hl, hf, rfl⟩))
      · rw [if_neg hf]; exact .inr (.inr (.inl ⟨hp, hl, hf, rfl⟩))
  · rw [if_neg hp]; exact .inl ⟨hp, rfl⟩

/-- `FINAL` with either value of `REJECT_EMPTY` (R153): `SEQ`, `EMPTY`, or the message is closed. -/
theorem finalWith_cases (r : Bool) (s : State) :
    (s.phase ≠ .opened ∧ finalWith r s = .next (s.raised .seq)) ∨
    (s.phase = .opened ∧ r = true ∧ s.len = 0 ∧
      finalWith r s = .next (State.raised { s with phase := .idle } .empty)) ∨
    (s.phase = .opened ∧ ¬(r = true ∧ s.len = 0) ∧
      finalWith r s = .next (State.answer
        { s with phase := .done, buf := Memory.zeros, work := none, h := paddedH s } okCode 0)) := by
  by_cases hp : s.phase = .opened
  · by_cases hl : r = true ∧ s.len = 0
    · exact .inr (.inl ⟨hp, hl.1, hl.2, by simp [finalWith, hp, hl, raiseErr]⟩)
    · refine .inr (.inr ⟨hp, hl, ?_⟩)
      have hl' : (r && s.len == 0) = false := by
        rw [Bool.and_eq_false_iff, beq_eq_false_iff_ne]
        by_cases hr : r = true
        · exact .inr fun h => hl ⟨hr, h⟩
        · exact .inl (by simpa using hr)
      rw [finalWith, if_pos hp, hl', if_neg Bool.false_ne_true, padfin_eq, respond]
  · exact .inl ⟨hp, by simp [finalWith, hp, raiseErr]⟩

/-- `RDH` (R171): `SEQ` in phase `IDLE`, else the word. -/
theorem execRdh_cases (i : BitVec 2) (s : State) :
    (s.phase = .idle ∧ execRdh i s = .next (s.raised .seq)) ∨
    (s.phase ≠ .idle ∧ execRdh i s = .next (s.answer okCode (Quad.word s.h i))) := by
  by_cases hp : s.phase = .idle <;> simp [execRdh, hp, raiseErr, respond]

/-- `RDD` (R172): the digest byte in phase `DONE`, else `SEQ`. -/
theorem execRdd_cases (j : BitVec 4) (s : State) :
    (s.phase ≠ .done ∧ execRdd j s = .next (s.raised .seq)) ∨
    (s.phase = .done ∧ execRdd j s = .next (s.answer okCode (digestByte s.h j))) := by
  by_cases hp : s.phase = .done <;> simp [execRdd, hp, raiseErr, respond]

/-- A step that answers a next state took nothing, the reset input, a command, or an illegal word. -/
theorem step_cases {s t : State} (h : step s = .next t) :
    (s.pending = [] ∧ t = s) ∨
    (∃ c rest, s.pending = .reset c :: rest ∧ t = State.applyReset { s with pending := rest }) ∨
    (∃ w rest i, s.pending = .command w :: rest ∧ decode w = .instr i ∧
      exec i { s with pending := rest } = .next t) ∨
    (∃ w rest why, s.pending = .command w :: rest ∧ decode w = .illegal why ∧
      t = State.raised { s with pending := rest } .ill) := by
  unfold step fetch at h
  cases hp : s.pending with
  | nil => simp only [hp, holdState] at h; cases h; exact .inl ⟨rfl, rfl⟩
  | cons e rest =>
    cases e with
    | reset c => simp only [hp, takeReset] at h; cases h; exact .inr (.inl ⟨c, rest, rfl, rfl⟩)
    | command w =>
      simp only [hp] at h
      cases hd : decode w with
      | instr i => simp only [hd] at h; exact .inr (.inr (.inl ⟨w, rest, i, rfl, hd, h⟩))
      | illegal why =>
        simp only [hd, takeIllegal, raiseErr] at h
        cases h
        exact .inr (.inr (.inr ⟨w, rest, why, rfl, hd, rfl⟩))

end Sys2Proof.Machine
end

