-- ==== Sys2Proof/Laws/PerInstr.lean ====
section
/-!
SUPPORT. The per-instruction family `RowMatch`: the word the encoder gives a command matches the
command's own row of R73.
-/

namespace Sys2Proof.Laws.RowMatch

/-- The encoded word lies in the command's match set (R73), and the command's operands in their fields. -/
def Statement (i : Instr) : Prop := i.row.matchesWord (encode i) = true ∧ i.wellFormed = true

theorem init : Statement .init := by unfold Statement; decide

theorem pushb (b : Byte) : Statement (.pushb b) := by
  revert b; unfold Statement; decide

theorem final : Statement .final := by unfold Statement; decide

theorem rdh (i : BitVec 2) : Statement (.rdh i) := by
  revert i; unfold Statement; decide

theorem rdd (j : BitVec 4) : Statement (.rdd j) := by
  revert j; unfold Statement; decide

theorem rds : Statement .rds := by unfold Statement; decide

end Sys2Proof.Laws.RowMatch
end

