-- ==== Sys2Proof/Laws/Run.lean ====
section
/-!
SUPPORT. Runs, step by step: zero steps, one more step in front, and two runs one after the other.
-/

namespace Sys2Proof.Machine

theorem runsTo_zero (s : State) : RunsTo 0 s s := rfl

/-- A run of `k + 1` steps is a step and a run of `k`. -/
theorem run_succ {s t : State} (k : Nat) (h : step s = .next t) :
    Sys2Proof.core.run (k + 1) s = Sys2Proof.core.run k t := by
  have hs : Sys2Proof.core.step s = .next t := h
  simp only [Host.Core.run, hs]

theorem runsTo_succ {s t u : State} {k : Nat} (h : step s = .next t) (hk : RunsTo k t u) :
    RunsTo (k + 1) s u := (run_succ k h).trans hk

/-- Two runs one after the other, when the first one's steps all answer a next state. -/
theorem runsTo_add {a b : Nat} {s t u : State} (hstep : ∀ s, ∃ t, step s = .next t)
    (h : RunsTo a s t) (hb : RunsTo b t u) : RunsTo (a + b) s u := by
  induction a generalizing s with
  | zero =>
    have hst : s = t := Host.Outcome.next.inj h
    rw [hst, Nat.zero_add]; exact hb
  | succ a ih =>
    obtain ⟨s', hs'⟩ := hstep s
    rw [Nat.succ_add]
    exact runsTo_succ hs' (ih ((run_succ a hs').symm.trans h))

end Sys2Proof.Machine
end

