-- ==== Sys2Proof/Tests/Slice0.lean ====
section
/-!
SUPPORT. The model's own tests: words written out from the spec's encodings, the vectors of
spec/95_test_vectors.md, one step each, and a witness for the hypotheses of each statement. Expected results
come from the spec.
-/

namespace Sys2Proof.Tests

open Sys2Proof Sys2Proof.Machine

/-! ## Well-formedness: an illegal word for each check of R73 and R74 -/

theorem test_legal_words :
    ([0x1000, 0x2061, 0x20FF, 0x3000, 0x4000, 0x4300, 0x5000, 0x5F00, 0x6000].all legalWord) = true := by
  decide

theorem test_legal_refuses_unknown_op :
    ([0x0000, 0x7000, 0x8000, 0xF000, 0xFFFF].any legalWord) = false := by decide

theorem test_legal_refuses_init_bits : ([0x1001, 0x1100].any legalWord) = false := by decide
theorem test_legal_refuses_pushb_idx : ([0x2161, 0x2F00].any legalWord) = false := by decide
theorem test_legal_refuses_final_bits : ([0x3001, 0x3100].any legalWord) = false := by decide
theorem test_legal_refuses_rdh_bits : ([0x4400, 0x4F00, 0x4001].any legalWord) = false := by decide
theorem test_legal_refuses_rdd_imm : ([0x5001, 0x5080].any legalWord) = false := by decide
theorem test_legal_refuses_rds_bits : ([0x6001, 0x6100].any legalWord) = false := by decide

/-! ## Decoding: each constructor's word from R73 and R79, bit by bit -/

theorem test_decode_init : decode 0b0001000000000000 = .instr .init := by decide
theorem test_decode_pushb : decode 0b0010000001100001 = .instr (.pushb 0x61) := by decide
theorem test_decode_final : decode 0b0011000000000000 = .instr .final := by decide
theorem test_decode_rdh : decode 0b0100001100000000 = .instr (.rdh 3) := by decide
theorem test_decode_rdd : decode 0b0101101000000000 = .instr (.rdd 10) := by decide
theorem test_decode_rds : decode 0b0110000000000000 = .instr .rds := by decide

/-- 95_test_vectors.md §7.1, the illegal column. -/
theorem test_decode_illegal :
    ([0x0000, 0x1001, 0x1100, 0x2161, 0x2F00, 0x3001, 0x4400, 0x4F00, 0x4001, 0x5080, 0x6100, 0x7000,
      0x8000, 0xF000, 0xFFFF].all fun w => (decode w).instr? == none) = true := by decide

theorem test_encode_rdd15 : encode (.rdd 15) = 0x5F00 := by decide

theorem test_decode_table_word :
    decodeTableWord 16 0x2061 = some (.pushb 0x61) ∧ decodeTableWord 16 0 = none := by decide

/-! ## Primitives (95_test_vectors.md §3) -/

theorem test_le32 : le32 0x61 0x62 0x63 0x80 = 0x80636261 := by decide
theorem test_le32Bytes : le32Bytes 0xb975c10c = [0x0c, 0xc1, 0x75, 0xb9] := by decide
theorem test_le64Bytes : le64Bytes 0x1C0 = [0xc0, 0x01, 0, 0, 0, 0, 0, 0] := by decide

/-- §3.2, third row. -/
theorem test_round_functions :
    fnF 0xffffffff 0x12345678 0x9abcdef0 = 0x12345678 ∧
    fnG 0xffffffff 0x12345678 0x9abcdef0 = 0x9abcdef8 ∧
    fnHx 0xffffffff 0x12345678 0x9abcdef0 = 0x77777777 ∧
    fnI 0xffffffff 0x12345678 0x9abcdef0 = 0xedcba987 := by decide

theorem test_rotl32 : rotl32 0xdeadbeef 23 = 0x77ef56df ∧ rotl32 0x80000001 21 = 0x00300000 := by
  decide

/-- The word-index table as R117 prints it. -/
theorem test_tableK : (List.range 64).map tableK =
    [0, 1, 2, 3, 4, 5, 6, 7, 8, 9, 10, 11, 12, 13, 14, 15] ++
    [1, 6, 11, 0, 5, 10, 15, 4, 9, 14, 3, 8, 13, 2, 7, 12] ++
    [5, 8, 11, 14, 1, 4, 7, 10, 13, 0, 3, 6, 9, 12, 15, 2] ++
    [0, 7, 14, 5, 12, 3, 10, 1, 8, 15, 6, 13, 4, 11, 2, 9] := by decide +kernel

theorem test_tableS : [0, 3, 16, 31, 32, 35, 48, 51, 63].map tableS =
    [7, 22, 5, 20, 4, 23, 6, 21, 21] := by decide

/-- The checksum of `T` (§9). -/
theorem test_tableT_sum : ((List.range 64).map tableT).foldl (· + ·) 0 = 0x27f3a0bc := by
  decide +kernel

/-! ## Compression and padding -/

/-- §5: step 0 of `pad("abc")` from `IV`. -/
theorem test_step0 :
    roundStep 0 iv (blockWord (pad [0x61, 0x62, 0x63])) =
      ⟨0x10325476, 0xd6d117b4, 0xefcdab89, 0x98badcfe⟩ := by decide +kernel

/-- §5: after step 63. -/
theorem test_rounds :
    rounds iv (blockWord (pad [0x61, 0x62, 0x63])) =
      ⟨0x310ade8f, 0xc08226b3, 0xe484b9d8, 0x624d8cb2⟩ := by decide +kernel

/-- §6.1: `compress` on a block that no padding makes. -/
theorem test_compress :
    compress ⟨0x01234567, 0x89abcdef, 0xfedcba98, 0x76543210⟩
        ((List.range 64).map (BitVec.ofNat 8)) =
      ⟨0x8490ffa8, 0x07293d80, 0xa1190bba, 0x537c31d9⟩ := by decide +kernel

/-- §4.1: padded lengths at the edges of the fill. -/
theorem test_pad_lengths :
    [0, 1, 55, 56, 63, 64, 119, 120].map padLen = [64, 64, 64, 128, 128, 128, 128, 192] := by decide

/-- §4.2: `pad("a")`. -/
theorem test_pad_a :
    pad [0x61] = [0x61, 0x80] ++ List.replicate 54 0 ++ [0x08, 0, 0, 0, 0, 0, 0, 0] := by
  decide +kernel

/-- §1.1: the source's vector for "message digest". -/
theorem test_md5_message_digest :
    hex (md5Bytes [0x6d, 0x65, 0x73, 0x73, 0x61, 0x67, 0x65, 0x20, 0x64, 0x69, 0x67, 0x65, 0x73, 0x74]) =
      "f96b697d7cb7938d525a2f31aaf161d0".toList := by decide +kernel

/-- §1.1: the source's vector for "abc". -/
theorem test_md5_abc :
    hex (md5Bytes [0x61, 0x62, 0x63]) = "900150983cd24fb0d6963f7d28e17f72".toList := by
  decide +kernel

/-! ## One step on a small state (95_test_vectors.md §7.2, §8) -/

/-- A state in a given phase, with a given message tail in the buffer. -/
def sample (p : Phase) (len : BitVec 61) (buf : Memory) : State :=
  { State.reset with h := iv, phase := p, len := len, buf := buf }

/-- One field of the next state. -/
def after {α : Type} (r : Result) (f : State → α) : Option α :=
  match r with
  | .next s => some (f s)
  | .fault _ => none
  | .refused _ => none

/-- `n` bytes `0x61`. -/
def letters (n : Nat) : Memory := (List.range n).map fun j => (j, 0x61)

theorem test_init_after_done :
    after (exec .init (sample .done 5 [])) (fun s => (s.h, s.len, s.phase, s.responses)) =
      some (iv, 0, .opened, [⟨0, 0⟩]) := by decide

theorem test_init_clears_flags :
    after (exec .init { State.reset with err := ⟨true, true, true, true⟩ }) (·.err) =
      some ⟨false, false, false, false⟩ := by decide

theorem test_pushb_first_byte :
    after (exec (.pushb 0x61) (sample .opened 0 [])) (fun s => (s.h, s.len, s.buf)) =
      some (iv, 1, [(0, 0x61)]) := by decide

/-- §6.2: the State after 64 bytes `0x61`. -/
theorem test_pushb_compresses :
    after (exec (.pushb 0x61) (sample .opened 63 (letters 63))) (fun s => (s.h, s.len, s.buf, s.work)) =
      some (⟨0x89d4ff56, 0x125cd962, 0x69cade33, 0x0033e325⟩, 64, [], none) := by decide +kernel

theorem test_final_a :
    after (exec .final (sample .opened 1 (letters 1))) (fun s => (s.h, s.len, s.phase)) =
      some (⟨0xb975c10c, 0xa8b6f1c0, 0xe299c331, 0x61267769⟩, 1, .done) := by decide +kernel

/-- P2: a fill of 56 runs two compressions. -/
theorem test_final_two_blocks :
    after (exec .final (sample .opened 56 (letters 56))) (fun s => (s.h, s.buf)) =
      some (⟨0xc78a0c3b, 0xb028f803, 0x70196c4c, 0x1872d106⟩, []) := by decide +kernel

theorem test_rdh_word :
    after (exec (.rdh 1) (sample .opened 0 [])) (·.responses) = some [⟨0, 0xefcdab89⟩] := by decide

theorem test_rdh_idle :
    after (exec (.rdh 0) State.reset) (fun s => (s.err, s.responses)) =
      some (⟨false, true, false, false⟩, [⟨2, 0⟩]) := by decide

/-- P1: bytes of `A = 0xb975c10c`. -/
theorem test_rdd_byte :
    after (exec (.rdd 3) { sample .done 1 [] with h := ⟨0xb975c10c, 0, 0, 0x61267769⟩ }) (·.responses) =
      some [⟨0, 0xb9⟩] := by decide

theorem test_rdd_last_byte :
    after (exec (.rdd 15) { sample .done 1 [] with h := ⟨0xb975c10c, 0, 0, 0x61267769⟩ })
      (·.responses) = some [⟨0, 0x61⟩] := by decide

theorem test_rds_reset : after (exec .rds State.reset) (·.responses) = some [⟨0, 0⟩] := by decide

/-- P4: `E_ILL | E_SEQ | OPEN`. -/
theorem test_rds_flags :
    after (exec .rds { sample .opened 1 [] with err := ⟨true, true, false, false⟩ }) (·.responses) =
      some [⟨0, 0x31⟩] := by decide

theorem test_final_empty :
    after (exec .final (sample .opened 0 [])) (fun s => (s.phase, s.err, s.responses)) =
      some (.idle, ⟨false, false, true, false⟩, [⟨3, 0⟩]) := by decide

/-- §7.2, U5: `REJECT_EMPTY = false`. -/
theorem test_final_empty_accepted :
    after (finalWith false (sample .opened 0 [])) (·.h) =
      some ⟨0xd98c1dd4, 0x04b2008f, 0x980980e9, 0x7e42f8ec⟩ := by decide +kernel

theorem test_pushb_overflow :
    after (exec (.pushb 0) (sample .opened Config.maxBytes [])) (fun s => (s.len, s.err, s.responses)) =
      some (Config.maxBytes, ⟨false, false, false, true⟩, [⟨4, 0⟩]) := by decide

theorem test_step_illegal :
    after (step { State.reset with pending := [.command 0x4400] })
      (fun s => (s.err, s.pending, s.responses)) =
      some (⟨true, false, false, false⟩, [], [⟨1, 0⟩]) := by decide

theorem test_step_runs_first_command :
    after (step (State.reset.withFetchWord 16 0x1000)) (fun s => (s.phase, s.pending)) =
      some (.opened, []) := by decide

/-! ## The buffer -/

theorem test_write_zero_removes : Memory.write [(3, 7), (5, 9)] 3 0 = [(5, 9)] := by decide
theorem test_write_sorted : Memory.write [(3, 7), (5, 9)] 4 1 = [(3, 7), (4, 1), (5, 9)] := by decide
theorem test_wf_refuses_zero : Memory.wf [(3, 0)] = false := by decide
theorem test_wf_refuses_order : Memory.wf [(5, 1), (3, 1)] = false := by decide
theorem test_wf_refuses_offset : Memory.wf [(64, 1)] = false := by decide

end Sys2Proof.Tests
end

