-- ==== Sys2Proof/Tests/Witnesses.lean ====
section
/-!
SUPPORT. For every statement of Certificates/Slice0/Obligations.lean that has hypotheses: a concrete state and
operands that meet all of them together, clause by clause.
-/

namespace Sys2Proof.Tests

open Sys2Proof Sys2Proof.Machine

/-- A state in which the host presents these words. -/
def presenting (ws : List CmdWord) : State :=
  { State.reset with pending := ws.map .command }

/-- An open engine holding the one-byte message `0x61`. -/
def openA : State := sample .opened 1 [(0, 0x61)]

theorem witness_openA_holds : Holds openA [0x61] := ⟨rfl, rfl, by decide, by decide⟩

theorem witness_empty_holds : Holds (sample .opened 0 []) [] := ⟨rfl, rfl, by decide, by decide⟩

/-- A finished engine with the digest of the message `0x61`. -/
def closedA : State := { sample .done 1 [] with h := md5State [0x61] }

theorem witness_closedA : Closed closedA [0x61] := ⟨rfl, rfl, rfl, by decide⟩

/-! ## Encoding and the step -/

theorem witness_DecodeEncode : (Instr.rdd 15).wellFormed = true := by decide

theorem witness_EncodeDecode : decode 0x4300 = .instr (.rdh 3) := by decide

theorem witness_IllegalWords :
    (presenting [0x4400, 0x1000]).pending = .command 0x4400 :: [.command 0x1000] ∧
      decode 0x4400 = .illegal (.mustBeZero 4) := by decide

theorem witness_StepRunsDecoded :
    (presenting [0x2061]).pending = .command 0x2061 :: [] ∧
      decode 0x2061 = .instr (.pushb 0x61) ∧ (Instr.pushb 0x61).wellFormed = true := by decide

theorem witness_NothingPresentedHoldsState : openA.pending = [] := by decide

theorem witness_ResetInputEffect :
    { openA with pending := [.reset (some 0x3000), .command 0x1000] }.pending =
      .reset (some 0x3000) :: [.command 0x1000] := rfl

/-! ## Commands -/

theorem witness_PushbResult_seq : (sample .done 7 []).phase ≠ .opened := by decide

theorem witness_PushbResult_ovf :
    (sample .opened Config.maxBytes []).phase = .opened ∧
      (sample .opened Config.maxBytes []).len.toNat = 2 ^ 61 - 1 := by decide

/-- One below the limit. -/
theorem witness_PushbResult_waits :
    (sample .opened (Config.maxBytes - 1) []).phase = .opened ∧
      (sample .opened (Config.maxBytes - 1) []).len.toNat < 2 ^ 61 - 1 ∧
      (fill (Config.maxBytes - 1)).toNat ≠ 63 := by decide

theorem witness_PushbResult_compresses :
    (sample .opened 63 (letters 63)).phase = .opened ∧
      (sample .opened 63 (letters 63)).len.toNat < 2 ^ 61 - 1 ∧ (fill 63).toNat = 63 := by decide

theorem witness_FinalPads_one_block :
    (sample .opened 55 (letters 55)).phase = .opened ∧
      (true = true → (sample .opened 55 (letters 55)).len ≠ 0) ∧
      (fill 55).toNat ≤ 55 := by decide

theorem witness_FinalPads_two_blocks :
    (sample .opened 56 (letters 56)).phase = .opened ∧
      (true = true → (sample .opened 56 (letters 56)).len ≠ 0) ∧
      56 ≤ (fill 56).toNat := by decide

/-- The empty message, where it is not rejected. -/
theorem witness_FinalPads_empty :
    (sample .opened 0 []).phase = .opened ∧ (false = true → (sample .opened 0 []).len ≠ 0) ∧
      (fill 0).toNat ≤ 55 := by decide

theorem witness_FinalOfEmptyMessage :
    (sample .opened 0 []).phase = .opened ∧ (sample .opened 0 []).len = 0 ∧
      Holds (sample .opened 0 []) [] := ⟨rfl, rfl, witness_empty_holds⟩

theorem witness_RdhResult : State.reset.phase = .idle ∧ openA.phase ≠ .idle := by decide

theorem witness_RddResult : openA.phase ≠ .done ∧ closedA.phase = .done := by decide

theorem witness_ReadoutsWriteNothing :
    ∃ c : Instr, (c = .rds ∨ (∃ i, c = .rdh i) ∨ ∃ j, c = .rdd j) := ⟨.rdh 3, .inr (.inl ⟨3, rfl⟩)⟩

theorem witness_SeqErrors :
    State.reset.phase ≠ .opened ∧ State.reset.phase = .idle ∧ openA.phase ≠ .done := by decide

/-- An open engine that has taken `n` zero bytes. -/
def openZeros (n : Nat) (len : BitVec 61) : State :=
  { sample .opened len [] with
    h := stateAfter (List.replicate n 0) ((List.replicate n (0 : Byte)).length / 64) }

theorem openZeros_holds (n : Nat) (len : BitVec 61) (hn : len.toNat = n) :
    Holds (openZeros n len) (List.replicate n 0) := by
  refine ⟨rfl, hn.trans List.length_replicate.symm, rfl, fun j _ => ?_⟩
  have h0 : ∀ k, (List.replicate n (0 : Byte)).getD k 0 = 0 := by
    intro k
    rw [List.getD_eq_getElem?_getD, List.getElem?_replicate]
    split <;> rfl
  rw [h0, ite_self]
  rfl

/-- The longest message there is: after `2^61 - 1` bytes no more can be pushed. -/
theorem witness_OverflowRefusedThenFinal :
    ∃ (s : State) (m : List Byte), s.phase = .opened ∧ s.len.toNat = 2 ^ 61 - 1 ∧ Holds s m :=
  have hlen : Config.maxBytes.toNat = 2 ^ 61 - 1 := by decide
  ⟨openZeros _ Config.maxBytes, _, rfl, hlen, openZeros_holds _ _ rfl⟩

theorem witness_ErrorPriority :
    (presenting [0x2161]).pending = .command 0x2161 :: [] ∧
      decode 0x2161 = .illegal (.mustBeZero 2) ∧
      ((sample .idle 0 []).phase ≠ .opened ∧ (sample .idle 0 []).len = 0) ∧
      ((sample .done Config.maxBytes []).phase ≠ .opened ∧
        (sample .done Config.maxBytes []).len.toNat = 2 ^ 61 - 1) := by decide

theorem witness_PhaseTable :
    (presenting [0xFFFF]).pending = .command 0xFFFF :: [] ∧
      decode 0xFFFF = .illegal (.unknownOp 15) := by decide

theorem witness_FlagsSticky :
    step State.reset = .next State.reset ∧
      (∀ k, (⟨true, true, true, true⟩ : Errors).flag k = true) :=
  ⟨rfl, fun k => by cases k <;> rfl⟩

/-! ## Who writes what -/

theorem witness_StateWordsWrittenOnlyByInitAndFold :
    ∃ t, exec .init State.reset = .next t ∧ t.h ≠ State.reset.h := ⟨_, rfl, by decide⟩

theorem witness_BufferWrites :
    ∃ t, exec (.pushb 0x61) (sample .opened 3 []) = .next t ∧
      Memory.read t.buf 3 ≠ Memory.read (sample .opened 3 []).buf 3 := ⟨_, rfl, by decide⟩

/-! ## Invariants and the computation -/

theorem witness_StepKeepsInv :
    Inv (presenting [0x1000]) ∧ ∃ t, step (presenting [0x1000]) = .next t :=
  ⟨⟨rfl, rfl, fun h => (by cases h), fun h => (by cases h),
    fun _ h => absurd h List.not_mem_nil⟩, _, rfl⟩

/-- The invariant holds of an open engine with a byte in its buffer, too. -/
theorem witness_StepKeepsInv_open : Inv openA ∧ ∃ t, step openA = .next t := by
  refine ⟨⟨rfl, rfl, fun _ j hj => ?_, fun h => (by cases h),
    fun _ h => absurd h List.not_mem_nil⟩, _, rfl⟩
  have h1 : 1 ≤ j := hj
  have h0 : ¬(0 = j) := by omega
  show Memory.read [(0, 0x61)] j = 0
  rw [Memory.read, if_neg h0]
  rfl

theorem witness_StepKeepsMessage : MessageInv openA ∧ ∃ t, step openA = .next t :=
  ⟨⟨fun _ => ⟨_, witness_openA_holds⟩, fun h => (by cases h)⟩, _, rfl⟩

theorem witness_StepKeepsMessage_done : MessageInv closedA ∧ ∃ t, step closedA = .next t :=
  ⟨⟨fun h => (by cases h), fun _ => ⟨_, witness_closedA⟩⟩, _, rfl⟩

theorem witness_PushbAppends : Holds openA [0x61] ∧ [(0x61 : Byte)].length < 2 ^ 61 - 1 :=
  ⟨witness_openA_holds, by decide⟩

theorem witness_FinalGivesDigestOfMessage : Holds openA [0x61] ∧ [(0x61 : Byte)] ≠ [] :=
  ⟨witness_openA_holds, by decide⟩

theorem witness_CommandLevelCorrectness :
    1 ≤ [(0x61 : Byte)].length ∧ [(0x61 : Byte)].length ≤ 2 ^ 61 - 1 ∧
      (presenting [0x1000, 0x2061, 0x3000, 0x5000, 0x5100, 0x5200, 0x5300, 0x5400, 0x5500, 0x5600,
        0x5700, 0x5800, 0x5900, 0x5A00, 0x5B00, 0x5C00, 0x5D00, 0x5E00, 0x5F00, 0x6000]).pending =
      present (messageCommands [0x61]) ++
        (present ((List.range 16).map fun j => .rdd (BitVec.ofNat 4 j)) ++ [.command 0x6000]) := by
  decide

theorem witness_EmptyMessageRun :
    (presenting [0x1000, 0x3000, 0x6000]).pending =
      present (messageCommands []) ++ [.command 0x6000] := by decide

theorem witness_InterleavedCommandsHarmless :
    Holds openA [0x61] ∧ Closed closedA [0x61] ∧ Instr.final ≠ .init ∧
      Holds { openA with pending := [.command 0x7000] } [0x61] ∧
      Closed { closedA with pending := [.command 0x7000] } [0x61] ∧ legalWord 0x7000 = false :=
  ⟨witness_openA_holds, witness_closedA, by decide,
    ⟨rfl, rfl, witness_openA_holds.h, witness_openA_holds.buf⟩,
    ⟨rfl, rfl, rfl, witness_closedA.buf⟩, by decide⟩

theorem witness_InitForgetsThePast :
    { openA with pending := [.command 0x1000, .command 0x6000] }.pending =
        .command (encode .init) :: [.command 0x6000] ∧
      { closedA with pending := [.command 0x1000, .command 0x6000] }.pending =
        .command (encode .init) :: [.command 0x6000] := by decide

/-- Two idle engines whose registers differ. -/
theorem witness_IdleContentsUnobservable :
    (sample .idle 0 []).phase = .idle ∧ (sample .idle 9 (letters 9)).phase = .idle ∧
      (sample .idle 0 []).err = (sample .idle 9 (letters 9)).err ∧
      (sample .idle 0 []).pending = (sample .idle 9 (letters 9)).pending ∧
      (sample .idle 0 []).len ≠ (sample .idle 9 (letters 9)).len := by decide

/-! ## The Compressor and the Padder -/

theorem witness_AdditiveConstantsAreSines : 63 < 64 ∧ tableT 63 = tableT 63 := by decide

theorem witness_RotateMovesBits : 0 < 23 ∧ 23 < 32 ∧ 31 < 32 := by decide

theorem witness_CompressionMicroOperations :
    (loadw openA).work = some ⟨⟨0x67452301, 0xefcdab89, 0x98badcfe, 0x10325476⟩, 0⟩ := by decide

theorem witness_PadLayout : 8 * [(0x61 : Byte), 0x62, 0x63].length < 2 ^ 64 := by decide

theorem witness_PadProperties :
    8 * [(0x61 : Byte)].length < 2 ^ 64 ∧ pad [0x61] = pad [0x61] := by decide

end Sys2Proof.Tests
end

section
/-!
SUPPORT. The facts about one step and one command that later proofs use: the step by what is presented, the
effects of a command (`Effect`, exactly `exec`), and `LEN` with its fill.
-/

namespace Sys2Proof.Machine

/-! ## One step, by what the host presents next (R70, R197, R210) -/

theorem step_of_pending_nil {s : State} (h : s.pending = []) : step s = .next s := by
  simp [step, fetch, h, holdState]

theorem step_of_reset {s : State} {c : Option CmdWord} {rest : List HostEvent}
    (h : s.pending = .reset c :: rest) :
    step s = .next (State.applyReset { s with pending := rest }) := by
  simp [step, fetch, h, takeReset]

theorem step_of_instr {s : State} {w : CmdWord} {rest : List HostEvent} {i : Instr}
    (h : s.pending = .command w :: rest) (hd : decode w = .instr i) :
    step s = exec i { s with pending := rest } := by
  simp [step, fetch, h, hd]

theorem step_of_illegal {s : State} {w : CmdWord} {rest : List HostEvent} {why : IllegalWord}
    (h : s.pending = .command w :: rest) (hd : decode w = .illegal why) :
    step s = .next (State.raised { s with pending := rest } .ill) := by
  simp [step, fetch, h, hd, takeIllegal, raiseErr]

/-- The fields of R71, put together again, are the word. -/
theorem formatC_fields (w : CmdWord) : formatC (opField w) (idxField w) (immField w) = w := by
  unfold formatC opField idxField immField
  have hop : w.extractLsb' 12 4 ++ w.extractLsb' 8 4 = w.extractLsb' 8 8 :=
    BitVec.extractLsb'_append_extractLsb'_eq_extractLsb' rfl
  rw [hop]
  exact (BitVec.extractLsb'_append_extractLsb'_eq_extractLsb' rfl).trans BitVec.extractLsb'_eq_self

theorem acceptIf_eq_instr_iff {zero : Bool} {i j : Instr} {op : BitVec 4} :
    acceptIf zero i op = .instr j ↔ zero = true ∧ i = j := by
  cases zero <;> simp [acceptIf]

theorem eq_encode_init_of_decode {w : CmdWord} (h : decode w = .instr .init) :
    w = encode .init := by
  unfold decode at h
  split at h
  case h_1 hop =>
    have hz := (acceptIf_eq_instr_iff.1 h).1
    rw [Bool.and_eq_true, beq_iff_eq, beq_iff_eq] at hz
    have hop' : opField w = 1 := BitVec.eq_of_toNat_eq hop
    rw [← formatC_fields w, hop', hz.1, hz.2, encode]
  case h_7 => cases h
  all_goals cases (acceptIf_eq_instr_iff.1 h).2

/-! ## What a command can do -/

/-- The phases that accept a command (R154, R187). -/
def Accepts (p : Phase) : Instr → Prop
  | .init => True
  | .pushb _ => p = .opened
  | .final => p = .opened
  | .rdh _ => p ≠ .idle
  | .rdd _ => p = .done
  | .rds => True

/-- What a readout responds (R171 to R173); the message commands read nothing out. -/
def readout (s : State) : Instr → Option Word
  | .rdh i => some (Quad.word s.h i)
  | .rdd j => some (digestByte s.h j)
  | .rds => some s.status
  | _ => none

/-- The next state of a command, by cause: every proof about commands splits on these eight. The
relation is exactly `exec` (`exec_eq_next_iff`). -/
inductive Effect (s : State) : Instr → State → Prop
  /-- the phase does not accept the command (R187). -/
  | seq {c} (ha : ¬Accepts s.phase c) : Effect s c (s.raised .seq)
  /-- `INIT` (R151). -/
  | init : Effect s .init (State.answer
      { s with h := iv, len := 0, buf := Memory.zeros, err := Errors.clear, phase := .opened }
      okCode 0)
  /-- a push at `MAX_BYTES` (R190). -/
  | ovf {v} (hp : s.phase = .opened) (hl : s.len = Config.maxBytes) :
      Effect s (.pushb v) (s.raised .ovf)
  /-- a push that leaves room in the block (R98). -/
  | waits {v} (hp : s.phase = .opened) (hl : s.len ≠ Config.maxBytes) (hf : fill s.len ≠ 63) :
      Effect s (.pushb v) (State.answer
        { s with len := s.len + 1, buf := Memory.write s.buf (fill s.len) v } okCode 0)
  /-- a push that fills the block (R98). -/
  | fills {v} (hp : s.phase = .opened) (hl : s.len ≠ Config.maxBytes) (hf : fill s.len = 63) :
      Effect s (.pushb v) (State.answer
        { s with
          h := compress s.h (Memory.bytes (Memory.write s.buf (fill s.len) v))
          len := s.len + 1
          buf := Memory.zeros
          work := none } okCode 0)
  /-- `FINAL` of the empty message (R188). -/
  | empty (hp : s.phase = .opened) (hl : s.len = 0) :
      Effect s .final (State.raised { s with phase := .idle } .empty)
  /-- `FINAL` that closes the message (R153). -/
  | pads (hp : s.phase = .opened) (hl : s.len ≠ 0) :
      Effect s .final (State.answer
        { s with phase := .done, buf := Memory.zeros, work := none, h := paddedH s } okCode 0)
  /-- a completed readout (R170). -/
  | reads {c d} (ha : Accepts s.phase c) (hd : readout s c = some d) :
      Effect s c (s.answer okCode d)

/-- Every command has an effect, and it is what `exec` answers. -/
theorem exists_effect (c : Instr) (s : State) : ∃ t, exec c s = .next t ∧ Effect s c t := by
  cases c with
  | init => exact ⟨_, execInit_eq s, .init⟩
  | pushb v =>
    obtain ⟨hp, h⟩ | ⟨hp, hl, h⟩ | ⟨hp, hl, hf, h⟩ | ⟨hp, hl, hf, h⟩ := execPushb_cases v s
    · exact ⟨_, h, .seq hp⟩
    · exact ⟨_, h, .ovf hp hl⟩
    · exact ⟨_, h, .waits hp hl hf⟩
    · exact ⟨_, h, .fills hp hl hf⟩
  | final =>
    obtain ⟨hp, h⟩ | ⟨hp, -, hl, h⟩ | ⟨hp, hl, h⟩ := finalWith_cases true s
    · exact ⟨_, h, .seq hp⟩
    · exact ⟨_, h, .empty hp hl⟩
    · exact ⟨_, h, .pads hp fun h0 => hl ⟨rfl, h0⟩⟩
  | rdh i =>
    obtain ⟨hp, h⟩ | ⟨hp, h⟩ := execRdh_cases i s
    · exact ⟨_, h, .seq (not_not_intro hp)⟩
    · exact ⟨_, h, .reads hp rfl⟩
  | rdd j =>
    obtain ⟨hp, h⟩ | ⟨hp, h⟩ := execRdd_cases j s
    · exact ⟨_, h, .seq hp⟩
    · exact ⟨_, h, .reads hp rfl⟩
  | rds => exact ⟨_, exec_rds s, .reads trivial rfl⟩

theorem Effect.exec_eq {s t : State} {c : Instr} (e : Effect s c t) : exec c s = .next t := by
  cases e with
  | seq ha =>
    cases c with
    | init => exact absurd trivial ha
    | pushb v => exact if_neg ha
    | final => exact if_neg ha
    | rdh i => exact if_pos (not_not.1 ha)
    | rdd j => exact if_neg ha
    | rds => exact absurd trivial ha
  | init => exact execInit_eq s
  | ovf hp hl => rw [exec_pushb, execPushb, absorb_eq, if_pos hp, if_pos hl]; rfl
  | waits hp hl hf =>
    rw [exec_pushb, execPushb, absorb_eq, if_pos hp, if_neg hl, if_neg hf]; rfl
  | fills hp hl hf =>
    rw [exec_pushb, execPushb, absorb_eq, if_pos hp, if_neg hl, if_pos hf]; rfl
  | empty hp hl => simp [finalWith, hp, hl, raiseErr]
  | pads hp hl =>
    have hl' : ¬(true && s.len == 0) = true := by simpa using hl
    rw [exec_final, finalWith, if_pos hp, if_neg hl', padfin_eq, respond]
  | reads ha hd =>
    cases c with
    | rdh i => cases hd; exact if_neg ha
    | rdd j => cases hd; exact if_pos ha
    | rds => cases hd; exact exec_rds s
    | init | pushb | final => cases hd

theorem exec_eq_next_iff {s t : State} {c : Instr} : exec c s = .next t ↔ Effect s c t := by
  refine ⟨fun h => ?_, Effect.exec_eq⟩
  obtain ⟨u, hu, e⟩ := exists_effect c s
  obtain rfl : u = t := Host.Outcome.next.inj (hu.symm.trans h)
  exact e

/-- An invariant of steps, from an invariant of commands: what holds whatever the host presents, of a
reset engine, of a refused word and after each command, is kept by every step. -/
theorem step_preserves {P : State → Prop} (hpending : ∀ s rest, P s → P { s with pending := rest })
    (hreset : ∀ s, P s → P s.applyReset) (hill : ∀ s, P s → P (s.raised .ill))
    (heffect : ∀ s c t, P s → Effect s c t → P t) {s t : State} (hs : P s)
    (h : step s = .next t) : P t := by
  obtain ⟨-, rfl⟩ | ⟨c, rest, -, rfl⟩ | ⟨w, rest, i, -, -, he⟩ | ⟨w, rest, why, -, -, rfl⟩ :=
    step_cases h
  · exact hs
  · exact hreset _ (hpending s rest hs)
  · exact heffect _ i t (hpending s rest hs) (exec_eq_next_iff.1 he)
  · exact hill _ (hpending s rest hs)

/-! ## `LEN` and the fill -/

theorem fill_toNat (len : BitVec 61) : (fill len).toNat = len.toNat % 64 := by
  simp [fill, BitVec.extractLsb'_toNat]

theorem bitLength_toNat (len : BitVec 61) : (bitLength len).toNat = 8 * len.toNat := by
  have := len.isLt
  have h8 : (8 : BitVec 64).toNat = 8 := rfl
  simp only [bitLength, BitVec.toNat_mul, BitVec.toNat_setWidth, h8]
  omega

theorem eq_maxBytes_iff (len : BitVec 61) : len = Config.maxBytes ↔ len.toNat = 2 ^ 61 - 1 :=
  BitVec.toNat_inj.symm

/-- `LEN` does not wrap: below `MAX_BYTES` the next count is one more. -/
theorem toNat_succ_of_ne_maxBytes {len : BitVec 61} (h : len ≠ Config.maxBytes) :
    (len + 1).toNat = len.toNat + 1 := by
  rw [Ne, eq_maxBytes_iff] at h
  have := len.isLt
  have h1 : (1 : BitVec 61).toNat = 1 := rfl
  rw [BitVec.toNat_add, h1]
  omega

theorem fill_eq_63_iff (len : BitVec 61) : fill len = 63 ↔ len.toNat % 64 = 63 := by
  rw [← fill_toNat]; exact BitVec.toNat_inj.symm

end Sys2Proof.Machine
end

section
/-!
SUPPORT. The message an open engine holds: an accepted push appends a byte, and the streaming padder of `FINAL`
leaves `md5_state`. Settles O31 and O32.
-/

namespace Sys2Proof.Machine

/-! ## The padded message, byte by byte (R90 to R94) -/

theorem pad_length (m : List Byte) : (pad m).length = padLen m.length := by
  simp only [pad, le64Bytes, List.length_append, List.length_replicate, List.length_map,
    List.length_range, List.length_singleton, padLen]
  omega

theorem le64Bytes_getD (v : BitVec 64) {i : Nat} (h : i < 8) :
    (le64Bytes v).getD i 0 = le64Byte v i := by
  simp [le64Bytes, List.getD, h]

theorem pad_getD_message (m : List Byte) {j : Nat} (h : j < m.length) :
    (pad m).getD j 0 = m.getD j 0 := by
  rw [pad, List.append_assoc, List.append_assoc, List.getD_append _ _ _ _ h]

theorem pad_getD_marker (m : List Byte) : (pad m).getD m.length 0 = 0x80 := by
  rw [pad, List.append_assoc, List.append_assoc, List.getD_append_right _ _ _ _ le_rfl,
    Nat.sub_self]
  rfl

theorem pad_getD_zero (m : List Byte) {j : Nat} (h : m.length < j) (hj : j + 8 < padLen m.length) :
    (pad m).getD j 0 = 0 := by
  rw [pad, List.append_assoc, List.getD_append_right _ _ _ _ (by simp; omega),
    List.getD_append _ _ _ _ (by simp; omega)]
  exact List.getD_replicate _ (by simp; omega)

theorem pad_getD_trailer (m : List Byte) {i : Nat} (h : i < 8) :
    (pad m).getD (padLen m.length - 8 + i) 0 =
      le64Byte (BitVec.ofNat 64 (8 * m.length)) i := by
  have hP : m.length + 9 ≤ padLen m.length := by unfold padLen; omega
  have hidx : padLen m.length - 8 + i -
      (m ++ [0x80] ++ List.replicate (padLen m.length - m.length - 9) (0 : Byte)).length = i := by
    simp; omega
  rw [pad, List.getD_append_right _ _ _ _ (by simp; omega), hidx, le64Bytes_getD _ h]

/-! ## Blocks of a growing sequence -/

theorem blockAt_append (m x : List Byte) {q : Nat} (h : 64 * q + 64 ≤ m.length) :
    blockAt (m ++ x) q = blockAt m q := by
  rw [blockAt, blockAt, List.drop_append_of_le_length (by omega),
    List.take_append_of_le_length (by rw [List.length_drop]; omega)]

/-- The State after some blocks depends on these blocks only (R135). -/
theorem stateAfter_append (m x : List Byte) {n : Nat} (h : 64 * n ≤ m.length) :
    stateAfter (m ++ x) n = stateAfter m n := by
  induction n with
  | zero => rw [stateAfter_zero, stateAfter_zero]
  | succ n ih =>
    rw [stateAfter_succ, stateAfter_succ, ih (by omega), blockAt_append m x (by omega)]

/-- The buffer's bytes are a block when they are so one by one. -/
theorem Memory.bytes_eq_blockAt {mem : Memory} {bs : List Byte} {q : Nat}
    (hq : 64 * q + 64 ≤ bs.length) (h : ∀ j, j < 64 → mem.read j = bs.getD (64 * q + j) 0) :
    mem.bytes = blockAt bs q := by
  apply List.ext_getElem (by rw [Memory.bytes_length, blockAt_length bs q hq])
  intro j hj hj'
  have hj64 : j < 64 := by simpa using hj
  rw [← List.getD_eq_getElem _ 0 hj, ← List.getD_eq_getElem _ 0 hj', mem.bytes_getD j hj64,
    blockAt_getD bs q j hj64, h j hj64]

/-! ## An open engine and its message (R32 I2) -/

/-- `Holds` reads four registers. -/
theorem Holds.congr {s t : State} {m : List Byte} (h : Holds s m) (hp : t.phase = s.phase)
    (hl : t.len = s.len) (hh : t.h = s.h) (hb : t.buf = s.buf) : Holds t m :=
  ⟨hp.trans h.phase, by rw [hl, h.len], hh.trans h.h, by rw [hb]; exact h.buf⟩

/-- `Closed` reads four registers. -/
theorem Closed.congr {s t : State} {m : List Byte} (h : Closed s m) (hp : t.phase = s.phase)
    (hl : t.len = s.len) (hh : t.h = s.h) (hb : t.buf = s.buf) : Closed t m :=
  ⟨hp.trans h.phase, by rw [hl, h.len], hh.trans h.h, by rw [hb]; exact h.buf⟩

section
variable {s : State} {m : List Byte}

theorem Holds.fill_eq (h : Holds s m) : (fill s.len).toNat = m.length % 64 := by
  rw [fill_toNat, h.len]

theorem Holds.length_lt (h : Holds s m) (hl : s.len ≠ Config.maxBytes) :
    m.length < 2 ^ 61 - 1 := by
  have := s.len.isLt
  rw [Ne, eq_maxBytes_iff, h.len] at hl
  rw [h.len] at this
  omega

theorem holds_nil_of_init {t : State} (e : Effect s .init t) : Holds t [] := by
  cases e with
  | seq ha => exact absurd trivial ha
  | init => exact ⟨rfl, rfl, (stateAfter_zero []).symm, by simp⟩
  | reads _ hd => cases hd

/-- The buffer with the next byte stored is the tail of the longer message. -/
theorem Holds.read_write (h : Holds s m) (v : Byte) {j : Nat} (hj : j < 64) :
    (Memory.write s.buf (fill s.len) v).read j =
      if j ≤ m.length % 64 then (m ++ [v]).getD (64 * (m.length / 64) + j) 0 else 0 := by
  rw [Memory.read_write, h.fill_eq, h.buf j hj]
  obtain hlt | rfl | hgt := lt_trichotomy j (m.length % 64)
  · rw [if_neg hlt.ne, if_pos hlt, if_pos hlt.le, List.getD_append _ _ _ _ (by omega)]
  · rw [if_pos rfl, if_pos le_rfl, Nat.div_add_mod, List.getD_append_right _ _ _ _ le_rfl,
      Nat.sub_self]
    rfl
  · rw [if_neg hgt.ne', if_neg (by omega), if_neg (by omega)]

theorem Holds.append_of_pushb {t : State} {v : Byte} (h : Holds s m) (hm : m.length < 2 ^ 61 - 1)
    (e : Effect s (.pushb v) t) :
    Holds t (m ++ [v]) ∧ t.err = s.err ∧ t.responses = s.responses ++ [⟨0, 0⟩] := by
  have hq : stateAfter (m ++ [v]) (m.length / 64) = s.h :=
    (stateAfter_append m [v] (by omega)).trans h.h.symm
  cases e with
  | seq ha => exact absurd h.phase ha
  | ovf _ hl =>
    rw [eq_maxBytes_iff, h.len] at hl
    omega
  | waits hp hl hf =>
    rw [Ne, fill_eq_63_iff, h.len] at hf
    have hdiv : (m ++ [v]).length / 64 = m.length / 64 := by simp; omega
    have hmod : (m ++ [v]).length % 64 = m.length % 64 + 1 := by simp; omega
    refine ⟨⟨hp, ?_, ?_, fun j hj => ?_⟩, rfl, rfl⟩
    · rw [State.answer_len, toNat_succ_of_ne_maxBytes hl, h.len, List.length_append,
        List.length_singleton]
    · rw [State.answer_h, hdiv, hq]
    · rw [State.answer_buf, h.read_write v hj, hdiv, hmod]
      simp only [Nat.lt_succ_iff]
  | fills hp hl hf =>
    rw [fill_eq_63_iff, h.len] at hf
    have hdiv : (m ++ [v]).length / 64 = m.length / 64 + 1 := by simp; omega
    have hmod : (m ++ [v]).length % 64 = 0 := by simp; omega
    refine ⟨⟨hp, ?_, ?_, fun j hj => ?_⟩, rfl, rfl⟩
    · rw [State.answer_len, toNat_succ_of_ne_maxBytes hl, h.len, List.length_append,
        List.length_singleton]
    · have hblk : Memory.bytes (Memory.write s.buf (fill s.len) v) =
          blockAt (m ++ [v]) (m.length / 64) :=
        Memory.bytes_eq_blockAt (by simp; omega) fun j hj => by
          rw [h.read_write v hj, if_pos (by omega)]
      rw [State.answer_h, hdiv, stateAfter_succ, hq, hblk]
    · rw [State.answer_buf, Memory.read_zeros, hmod, if_neg (Nat.not_lt_zero j)]
  | reads _ hd => cases hd

/-! ## The streaming padder closes the message (R99, R100) -/

/-- The marker, once written, and the zeros around the message are those of `pad(m)`. -/
theorem Holds.read_marked (h : Holds s m) {j : Nat} (hj : j < 64)
    (hP : 64 * (m.length / 64) + j + 8 < padLen m.length) :
    (Memory.write s.buf (fill s.len) 0x80).read j = (pad m).getD (64 * (m.length / 64) + j) 0 := by
  rw [Memory.read_write, h.fill_eq, h.buf j hj]
  obtain hlt | rfl | hgt := lt_trichotomy j (m.length % 64)
  · rw [if_neg hlt.ne, if_pos hlt, pad_getD_message m (by omega)]
  · rw [if_pos rfl, Nat.div_add_mod, pad_getD_marker]
  · rw [if_neg hgt.ne', if_neg (by omega), pad_getD_zero m (by omega) hP]

/-- A buffer that agrees with the last block of `pad(m)` before offset 56 is that block once the trailer
is written. -/
theorem Holds.lastBlock_eq (h : Holds s m) {mem : Memory} {q : Nat}
    (hq : padLen m.length = 64 * q + 64)
    (hmem : ∀ j, j < 56 → mem.read j = (pad m).getD (64 * q + j) 0) :
    lastBlock s mem = blockAt (pad m) q := by
  have hv : bitLength s.len = BitVec.ofNat 64 (8 * m.length) := by
    rw [← h.len, ← bitLength_toNat, BitVec.ofNat_toNat, BitVec.setWidth_eq]
  refine Memory.bytes_eq_blockAt (by rw [pad_length, hq]) fun j hj => ?_
  rw [read_writeTrailerFrom _ _ _ _ _ le_rfl]
  by_cases h56 : j < 56
  · rw [if_neg (by omega), hmem j h56]
  · have hidx : 64 * q + j = padLen m.length - 8 + (j - 56) := by omega
    rw [if_pos (by omega), hidx, pad_getD_trailer m (by omega), hv]

theorem Holds.stateAfter_pad (h : Holds s m) : stateAfter (pad m) (m.length / 64) = s.h := by
  rw [pad, List.append_assoc, List.append_assoc, stateAfter_append m _ (by omega), h.h]

/-- PADFIN leaves the digest of the message held, in one block or in two (R99, R100). -/
theorem Holds.paddedH_eq (h : Holds s m) : paddedH s = md5State m := by
  rw [paddedH, md5State, pad_length, h.fill_eq]
  by_cases hn : 56 ≤ m.length % 64
  · have hP : padLen m.length = 64 * (m.length / 64 + 1) + 64 := by unfold padLen; omega
    have hfirst : Memory.bytes (Memory.write s.buf (fill s.len) 0x80) =
        blockAt (pad m) (m.length / 64) :=
      Memory.bytes_eq_blockAt (by rw [pad_length]; omega) fun j hj => h.read_marked hj (by omega)
    have hlast : lastBlock s Memory.zeros = blockAt (pad m) (m.length / 64 + 1) :=
      h.lastBlock_eq hP fun j hj => (pad_getD_zero m (by omega) (by omega)).symm
    have hblocks : padLen m.length / 64 = m.length / 64 + 2 := by omega
    rw [if_pos hn, hblocks, stateAfter_succ, stateAfter_succ, h.stateAfter_pad, hfirst, hlast]
  · have hP : padLen m.length = 64 * (m.length / 64) + 64 := by unfold padLen; omega
    have hlast : lastBlock s (Memory.write s.buf (fill s.len) 0x80) =
        blockAt (pad m) (m.length / 64) :=
      h.lastBlock_eq hP fun j hj => h.read_marked (by omega) (by omega)
    have hblocks : padLen m.length / 64 = m.length / 64 + 1 := by omega
    rw [if_neg hn, hblocks, stateAfter_succ, h.stateAfter_pad, hlast]

/-- The state that a completed `FINAL` leaves, for any message, the empty one included. -/
theorem Holds.closed_of_padded (h : Holds s m) :
    Closed (State.answer
      { s with phase := .done, buf := Memory.zeros, work := none, h := paddedH s } okCode 0) m :=
  ⟨rfl, h.len, h.paddedH_eq, fun _ _ => rfl⟩

end

/-! ## The message invariant (R32 I2, I3) -/

/-- `MessageInv` reads four registers. -/
theorem MessageInv.congr {s t : State} (h : MessageInv s) (hp : t.phase = s.phase)
    (hl : t.len = s.len) (hh : t.h = s.h) (hb : t.buf = s.buf) : MessageInv t := by
  obtain ⟨hopen, hdone⟩ := h
  refine ⟨fun ht => ?_, fun ht => ?_⟩
  · obtain ⟨m, hm⟩ := hopen (hp.symm.trans ht)
    exact ⟨m, hm.congr hp hl hh hb⟩
  · obtain ⟨m, hm⟩ := hdone (hp.symm.trans ht)
    exact ⟨m, hm.congr hp hl hh hb⟩

theorem messageInv_of_idle {s : State} (h : s.phase = .idle) : MessageInv s :=
  ⟨fun ho => absurd (h.symm.trans ho) (by decide), fun hd => absurd (h.symm.trans hd) (by decide)⟩

theorem Holds.messageInv {s : State} {m : List Byte} (h : Holds s m) : MessageInv s :=
  ⟨fun _ => ⟨m, h⟩, fun hd => absurd (h.phase.symm.trans hd) (by decide)⟩

theorem Closed.messageInv {s : State} {m : List Byte} (h : Closed s m) : MessageInv s :=
  ⟨fun ho => absurd (h.phase.symm.trans ho) (by decide), fun _ => ⟨m, h⟩⟩

theorem Effect.messageInv {s t : State} {c : Instr} (e : Effect s c t) (h : MessageInv s) :
    MessageInv t := by
  cases e with
  | seq | ovf | reads => exact h.congr rfl rfl rfl rfl
  | init => exact (holds_nil_of_init .init).messageInv
  | waits hp hl hf =>
    obtain ⟨m, hm⟩ := h.1 hp
    exact (hm.append_of_pushb (hm.length_lt hl) (.waits hp hl hf)).1.messageInv
  | fills hp hl hf =>
    obtain ⟨m, hm⟩ := h.1 hp
    exact (hm.append_of_pushb (hm.length_lt hl) (.fills hp hl hf)).1.messageInv
  | empty => exact messageInv_of_idle rfl
  | pads hp hl =>
    obtain ⟨m, hm⟩ := h.1 hp
    exact hm.closed_of_padded.messageInv

/-- Settles O31: each command's effect keeps the message invariant; the heart is
`Holds.paddedH_eq`, that the
streaming padder compresses the blocks of `pad(m)`. -/
theorem stepKeepsMessage : Obligations.StepKeepsMessage := by
  unfold Obligations.StepKeepsMessage
  intro s t hs h
  exact step_preserves (fun _ _ hm => hm.congr rfl rfl rfl rfl) (fun _ _ => messageInv_of_idle rfl)
    (fun _ hm => hm.congr rfl rfl rfl rfl) (fun _ _ _ hm e => e.messageInv hm) hs h

/-- Settles O32: both halves by the effects of `INIT` and `PUSHB`. -/
theorem pushbAppends : Obligations.PushbAppends := by
  unfold Obligations.PushbAppends
  refine ⟨fun s => ?_, fun s m v hm hlen => ?_⟩
  · obtain ⟨t, ht, e⟩ := exists_effect .init s
    exact ⟨t, ht, holds_nil_of_init e⟩
  · obtain ⟨t, ht, e⟩ := exists_effect (.pushb v) s
    exact ⟨t, ht, hm.append_of_pushb hlen e⟩

end Sys2Proof.Machine
end

section
/-!
SUPPORT. The state invariant, the flags, who writes which register, and two engines side by side. Settles O24 to
O30 and O38.
-/

namespace Sys2Proof.Machine

/-! ## The state invariant (R32, R76) -/

theorem Response.wf_ok (d : Word) : Response.wf ⟨okCode, d⟩ := ⟨Nat.zero_le 4, fun h => absurd rfl h⟩

theorem Response.wf_error (k : ErrKind) : Response.wf ⟨k.code, 0⟩ :=
  ⟨by cases k <;> decide, fun _ => rfl⟩

/-- One more response, of a form R76 allows, keeps the invariant's clause on responses. -/
theorem Inv.wf_append {s : State} (h : Inv s) {r : Response} (hr : r.wf) :
    ∀ x ∈ s.responses ++ [r], x.wf := by
  intro x hx
  obtain hx | hx := List.mem_append.1 hx
  · exact h.answers x hx
  · rw [List.mem_singleton.1 hx]
    exact hr

theorem Inv.raised {s : State} (h : Inv s) (k : ErrKind) : Inv (s.raised k) :=
  ⟨h.bufWf, h.noWork, h.zeroFill, h.zeroDone, h.wf_append (Response.wf_error k)⟩

theorem Inv.answer {s : State} (h : Inv s) (d : Word) : Inv (s.answer okCode d) :=
  ⟨h.bufWf, h.noWork, h.zeroFill, h.zeroDone, h.wf_append (Response.wf_ok d)⟩

theorem Inv.applyReset {s : State} (h : Inv s) : Inv s.applyReset :=
  ⟨rfl, rfl, nofun, nofun, h.answers⟩

/-- A state with no byte in the buffer and no compression in progress has the invariant, whatever
its phase and counters. -/
theorem inv_of_zeros {s : State} (hb : s.buf = Memory.zeros) (hw : s.work = none)
    (hr : ∀ r ∈ s.responses, r.wf) : Inv s :=
  ⟨by rw [hb]; exact Memory.zeros_wf, hw, fun _ j _ => by rw [hb]; exact Memory.read_zeros j,
    fun _ j => by rw [hb]; exact Memory.read_zeros j, hr⟩

/-- A push that leaves room moves the fill one up, so the byte it stores lies below the new fill. -/
theorem Inv.read_write_of_fill_le {s : State} (h : Inv s) (hp : s.phase = .opened)
    (hl : s.len ≠ Config.maxBytes) (hf : fill s.len ≠ 63) (v : Byte) {j : Nat}
    (hj : (fill (s.len + 1)).toNat ≤ j) : (Memory.write s.buf (fill s.len) v).read j = 0 := by
  have hlt : (fill s.len).toNat < j := by
    rw [Ne, fill_eq_63_iff] at hf
    rw [fill_toNat, toNat_succ_of_ne_maxBytes hl] at hj
    rw [fill_toNat]
    omega
  rw [Memory.read_write, if_neg hlt.ne']
  exact h.zeroFill hp j hlt.le

theorem Effect.inv {s t : State} {c : Instr} (e : Effect s c t) (h : Inv s) : Inv t := by
  cases e with
  | seq => exact h.raised .seq
  | init => exact inv_of_zeros rfl h.noWork (h.wf_append (Response.wf_ok 0))
  | ovf => exact h.raised .ovf
  | waits hp hl hf =>
    exact ⟨Memory.write_wf _ _ _ h.bufWf, h.noWork,
      fun _ j hj => h.read_write_of_fill_le hp hl hf _ hj,
      fun hd => absurd (hp.symm.trans hd) (by decide), h.wf_append (Response.wf_ok 0)⟩
  | fills => exact inv_of_zeros rfl rfl (h.wf_append (Response.wf_ok 0))
  | empty =>
    exact ⟨h.bufWf, h.noWork, nofun, nofun, h.wf_append (Response.wf_error .empty)⟩
  | pads => exact inv_of_zeros rfl rfl (h.wf_append (Response.wf_ok 0))
  | reads => exact h.answer _

/-- Settles O30: each command's effect keeps the invariant, and so do reset and an illegal word. -/
theorem stepKeepsInv : Obligations.StepKeepsInv := by
  unfold Obligations.StepKeepsInv
  intro s t hs h
  exact step_preserves
    (fun _ _ hi => ⟨hi.bufWf, hi.noWork, hi.zeroFill, hi.zeroDone, hi.answers⟩)
    (fun _ hi => hi.applyReset) (fun _ hi => hi.raised .ill) (fun _ _ _ hi e => e.inv hi) hs h

/-- Settles O29: nothing is listed, nothing is answered, and phase `IDLE` asks for no message. -/
theorem invAtReset : Obligations.InvAtReset := by
  unfold Obligations.InvAtReset
  exact ⟨inv_of_zeros rfl rfl fun _ hr => absurd hr List.not_mem_nil, messageInv_of_idle rfl, rfl,
    rfl, by decide⟩

/-! ## The error flags (R28, R192) -/

/-- What a command does to the flags: `INIT` clears them, every other command sets at most one. -/
theorem Effect.err {s t : State} {c : Instr} (e : Effect s c t) :
    (c = .init ∧ t.err = Errors.clear) ∨ t.err = s.err ∨ ∃ k, t.err = s.err.set k := by
  cases e with
  | init => exact .inl ⟨rfl, rfl⟩
  | waits | fills | pads | reads => exact .inr (.inl rfl)
  | seq => exact .inr (.inr ⟨.seq, rfl⟩)
  | ovf => exact .inr (.inr ⟨.ovf, rfl⟩)
  | empty => exact .inr (.inr ⟨.empty, rfl⟩)

@[simp] theorem Errors.flag_clear (k : ErrKind) : Errors.clear.flag k = false := by
  cases k <;> rfl

/-- Settles O24: reset and `INIT` clear the flags; a raise sets one and clears none. -/
theorem flagsSticky : Obligations.FlagsSticky := by
  unfold Obligations.FlagsSticky
  intro s t h
  obtain ⟨-, rfl⟩ | ⟨c, rest, hp, rfl⟩ | ⟨w, rest, i, hp, hd, he⟩ | ⟨w, rest, why, -, -, rfl⟩ :=
    step_cases h
  · exact .inl fun _ hk => hk
  · exact .inr ⟨Errors.flag_clear, rest, .inl ⟨c, hp⟩⟩
  · obtain ⟨rfl, hclear⟩ | hkeep | ⟨k, hset⟩ := (exec_eq_next_iff.1 he).err
    · rw [eq_encode_init_of_decode hd] at hp
      exact .inr ⟨fun k => by rw [hclear, Errors.flag_clear], rest, .inr hp⟩
    · exact .inl fun k hk => by rw [hkeep]; exact hk
    · exact .inl fun k' hk => by rw [hset]; exact Errors.flag_set_mono s.err k k' hk
  · exact .inl fun k hk => Errors.flag_set_mono s.err .ill k hk

/-! ## Who writes what -/

/-- Settles O26: of the eight effects three write `H`. -/
theorem stateWordsWrittenOnlyByInitAndFold : Obligations.StateWordsWrittenOnlyByInitAndFold := by
  unfold Obligations.StateWordsWrittenOnlyByInitAndFold
  intro c s t h hne
  cases exec_eq_next_iff.1 h with
  | init => exact .inl ⟨rfl, rfl⟩
  | fills hp hl hf => exact .inr (.inl ⟨⟨_, rfl⟩, hp, congrArg BitVec.toNat hf, rfl⟩)
  | pads hp hl => exact .inr (.inr ⟨rfl, hp, rfl⟩)
  | seq | ovf | waits | empty | reads => exact absurd rfl hne

/-- Settles O27: `INIT` and the two accepted pushes write `LEN`, and the count does not wrap below
`MAX_BYTES`. -/
theorem lengthCounter : Obligations.LengthCounter := by
  unfold Obligations.LengthCounter
  refine ⟨fun c s => ?_, fun len => ⟨fill_toNat len, bitLength_toNat len, by omega⟩⟩
  obtain ⟨t, ht, e⟩ := exists_effect c s
  refine ⟨t, ht, ?_⟩
  have hlt := s.len.isLt
  cases e with
  | init => rfl
  | seq ha =>
    cases c with
    | init => exact absurd trivial ha
    | pushb v => exact (if_neg fun hacc => ha hacc.1).symm
    | final | rdh | rdd | rds => rfl
  | ovf _ hl =>
    rw [eq_maxBytes_iff] at hl
    exact (if_neg fun hacc => hacc.2.ne hl).symm
  | waits hp hl | fills hp hl =>
    have hbelow : s.len.toNat < 2 ^ 61 - 1 := by
      rw [Ne, eq_maxBytes_iff] at hl
      omega
    rw [State.answer_len, toNat_succ_of_ne_maxBytes hl]
    exact (if_pos ⟨hp, hbelow⟩).symm
  | empty | pads => rfl
  | reads _ hd =>
    cases c with
    | init | pushb | final => cases hd
    | rdh | rdd | rds => rfl

/-- Settles O28: the first half is `Memory.read_write`; of the eight effects, one stores a byte. -/
theorem bufferWrites : Obligations.BufferWrites := by
  unfold Obligations.BufferWrites
  refine ⟨Memory.read_write, fun c s t a h hne => ?_⟩
  cases exec_eq_next_iff.1 h with
  | init | fills | pads => exact .inl (Memory.read_zeros a)
  | @waits v hp hl hf =>
    rw [State.answer_buf, Memory.read_write] at hne ⊢
    by_cases ha : a = (fill s.len).toNat
    · rw [if_pos ha]
      exact .inr ⟨rfl, ha, hp⟩
    · rw [if_neg ha] at hne
      exact absurd rfl hne
  | seq | ovf | empty | reads => exact absurd rfl hne

/-! ## Two engines side by side -/

/-- Other flags change nothing of an effect but the flags, and for `RDS` its response. -/
theorem Effect.with_err {s t : State} {c : Instr} (ef : Effect s c t) (e : Errors) :
    ∃ f r, Effect { s with err := e } c { t with err := f, responses := r } ∧
      (c ≠ .rds → r = t.responses) := by
  cases ef with
  | seq ha => exact ⟨_, _, .seq ha, fun _ => rfl⟩
  | init => exact ⟨_, _, .init, fun _ => rfl⟩
  | ovf hp hl => exact ⟨_, _, .ovf hp hl, fun _ => rfl⟩
  | waits hp hl hf => exact ⟨_, _, .waits hp hl hf, fun _ => rfl⟩
  | fills hp hl hf => exact ⟨_, _, .fills hp hl hf, fun _ => rfl⟩
  | empty hp hl => exact ⟨_, _, .empty hp hl, fun _ => rfl⟩
  | pads hp hl => exact ⟨_, _, .pads hp hl, fun _ => rfl⟩
  | reads ha hd =>
    cases c with
    | init | pushb | final => cases hd
    | rdh | rdd => exact ⟨_, _, .reads ha hd, fun _ => rfl⟩
    | rds => exact ⟨_, _, .reads ha rfl, fun hne => absurd rfl hne⟩

/-- Settles O25: with other flags the same effect takes place. -/
theorem flagsAffectNoCommand : Obligations.FlagsAffectNoCommand := by
  unfold Obligations.FlagsAffectNoCommand
  intro c s e
  obtain ⟨t, ht, ef⟩ := exists_effect c s
  obtain ⟨f, r, ef', hr⟩ := ef.with_err e
  exact ⟨t, _, ht, ef'.exec_eq, ⟨rfl, rfl, rfl, rfl, rfl⟩, rfl, fun hc => (hr hc).symm⟩

theorem paddedH_congr {s t : State} (hh : t.h = s.h) (hl : t.len = s.len) (hb : t.buf = s.buf) :
    paddedH t = paddedH s := by
  rw [paddedH, paddedH, lastBlock, lastBlock, lastBlock, lastBlock, hh, hl, hb]

/-- Two engines that no run can tell apart: same phase, flags and presentation, and outside phase `IDLE`
the same `H`, `LEN` and `BUF` (R33, R187). -/
structure Alike (s t : State) : Prop where
  phase : t.phase = s.phase
  err : t.err = s.err
  pending : t.pending = s.pending
  regs : s.phase ≠ .idle → t.h = s.h ∧ t.len = s.len ∧ t.buf = s.buf

/-- A completed readout of the same phase and flags responds the same: `RDS` reads nothing else,
and the other two
are not accepted in phase `IDLE`. -/
theorem Alike.readout_eq {s t : State} {c : Instr} (h : Alike s t) (ha : Accepts s.phase c) :
    readout t c = readout s c := by
  cases c with
  | init | pushb | final => rfl
  | rdh i => rw [readout, readout, (h.regs ha).1]
  | rdd j =>
    have hp : s.phase ≠ .idle := by rw [show s.phase = .done from ha]; decide
    rw [readout, readout, (h.regs hp).1]
  | rds => rw [readout, readout, State.status, State.status, h.phase, h.err]

theorem Alike.raised {s t : State} (h : Alike s t) (k : ErrKind) :
    Alike (s.raised k) (t.raised k) :=
  ⟨h.phase, congrArg (·.set k) h.err, h.pending, h.regs⟩

/-- Two engines alike: a command has the same effect on both, with the same response, and leaves
them alike. -/
theorem Alike.effect {s t s' : State} {c : Instr} (h : Alike s t) (e : Effect s c s') :
    ∃ t' r, Effect t c t' ∧ Alike s' t' ∧
      s'.responses = s.responses ++ [r] ∧ t'.responses = t.responses ++ [r] := by
  have hregs : s.phase = .opened → t.h = s.h ∧ t.len = s.len ∧ t.buf = s.buf :=
    fun hp => h.regs (by rw [hp]; decide)
  cases e with
  | seq ha => exact ⟨_, _, .seq (by rwa [h.phase]), h.raised .seq, rfl, rfl⟩
  | init => exact ⟨_, _, .init, ⟨rfl, rfl, h.pending, fun _ => ⟨rfl, rfl, rfl⟩⟩, rfl, rfl⟩
  | ovf hp hl =>
    obtain ⟨-, hlen, -⟩ := hregs hp
    exact ⟨_, _, .ovf (h.phase.trans hp) (hlen.trans hl), h.raised .ovf, rfl, rfl⟩
  | @waits v hp hl hf =>
    obtain ⟨hh, hlen, hbuf⟩ := hregs hp
    refine ⟨_, _, .waits (h.phase.trans hp) (by rwa [hlen]) (by rwa [hlen]),
      ⟨h.phase, h.err, h.pending, fun _ => ⟨hh, ?_, ?_⟩⟩, rfl, rfl⟩
    · rw [State.answer_len, State.answer_len, hlen]
    · rw [State.answer_buf, State.answer_buf, hlen, hbuf]
  | @fills v hp hl hf =>
    obtain ⟨hh, hlen, hbuf⟩ := hregs hp
    refine ⟨_, _, .fills (h.phase.trans hp) (by rwa [hlen]) (by rwa [hlen]),
      ⟨h.phase, h.err, h.pending, fun _ => ⟨?_, ?_, rfl⟩⟩, rfl, rfl⟩
    · rw [State.answer_h, State.answer_h, hh, hlen, hbuf]
    · rw [State.answer_len, State.answer_len, hlen]
  | empty hp hl =>
    obtain ⟨-, hlen, -⟩ := hregs hp
    exact ⟨_, _, .empty (h.phase.trans hp) (hlen.trans hl),
      ⟨rfl, congrArg (·.set .empty) h.err, h.pending, fun hne => absurd rfl hne⟩, rfl, rfl⟩
  | pads hp hl =>
    obtain ⟨hh, hlen, hbuf⟩ := hregs hp
    exact ⟨_, _, .pads (h.phase.trans hp) (by rwa [hlen]),
      ⟨rfl, h.err, h.pending, fun _ => ⟨paddedH_congr hh hlen hbuf, hlen, rfl⟩⟩, rfl, rfl⟩
  | reads ha hd =>
    exact ⟨_, _, .reads (by rwa [h.phase]) ((h.readout_eq ha).trans hd),
      ⟨h.phase, h.err, h.pending, h.regs⟩, rfl, rfl⟩

/-- Two engines alike step alike and give the same response, if any. -/
theorem Alike.step {s t : State} (h : Alike s t) :
    ∃ s' t' out, step s = .next s' ∧ step t = .next t' ∧ Alike s' t' ∧
      s'.responses = s.responses ++ out ∧ t'.responses = t.responses ++ out := by
  have halike (rest : List HostEvent) : Alike { s with pending := rest } { t with pending := rest } :=
    ⟨h.phase, h.err, rfl, h.regs⟩
  cases hs : s.pending with
  | nil =>
    exact ⟨s, t, [], step_of_pending_nil hs, step_of_pending_nil (h.pending.trans hs), h,
      (List.append_nil _).symm, (List.append_nil _).symm⟩
  | cons event rest =>
    have ht := h.pending.trans hs
    cases event with
    | reset c =>
      exact ⟨_, _, [], step_of_reset hs, step_of_reset ht,
        ⟨rfl, rfl, rfl, fun _ => ⟨rfl, rfl, rfl⟩⟩, (List.append_nil _).symm,
        (List.append_nil _).symm⟩
    | command w =>
      cases hd : decode w with
      | instr i =>
        obtain ⟨s', hs', e⟩ := exists_effect i { s with pending := rest }
        obtain ⟨t', r, e', hst, hrs, hrt⟩ := (halike rest).effect e
        exact ⟨s', t', [r], (step_of_instr hs hd).trans hs', (step_of_instr ht hd).trans e'.exec_eq,
          hst, hrs, hrt⟩
      | illegal why =>
        exact ⟨_, _, _, step_of_illegal hs hd, step_of_illegal ht hd, (halike rest).raised .ill, rfl,
          rfl⟩

/-- Two engines alike run alike, for any number of steps, with the same responses. -/
theorem Alike.run {s t : State} (h : Alike s t) (k : Nat) :
    ∃ s' t' out, RunsTo k s s' ∧ RunsTo k t t' ∧ Alike s' t' ∧
      s'.responses = s.responses ++ out ∧ t'.responses = t.responses ++ out := by
  induction k generalizing s t with
  | zero =>
    exact ⟨s, t, [], runsTo_zero s, runsTo_zero t, h, (List.append_nil _).symm,
      (List.append_nil _).symm⟩
  | succ k ih =>
    obtain ⟨s₁, t₁, out₁, hs, ht, h₁, hrs, hrt⟩ := h.step
    obtain ⟨s₂, t₂, out₂, hs', ht', h₂, hrs', hrt'⟩ := ih h₁
    exact ⟨s₂, t₂, out₁ ++ out₂, runsTo_succ hs hs', runsTo_succ ht ht', h₂,
      by rw [hrs', hrs, List.append_assoc], by rw [hrt', hrt, List.append_assoc]⟩

/-- Settles O38: two idle engines are alike, whatever `H`, `LEN` and `BUF` hold. -/
theorem idleContentsUnobservable : Obligations.IdleContentsUnobservable := by
  unfold Obligations.IdleContentsUnobservable
  intro s t hs ht herr hpending k
  have h : Alike s t :=
    ⟨ht.trans hs.symm, herr.symm, hpending.symm, fun hne => absurd hs hne⟩
  obtain ⟨s', t', out, hrs, hrt, h', hout, hout'⟩ := h.run k
  exact ⟨s', t', out, hrs, hrt, hout, hout', h'.phase.symm, h'.err.symm⟩

end Sys2Proof.Machine
end

section
/-!
SUPPORT. The trailer as the schedule sees it: a word is four bytes end to end, so four bytes of the trailer are
32 bits of the bit length. Settles O46.
-/

namespace Sys2Proof.Machine

/-! ## Byte order (R12) -/

/-- A byte moved up inside a word loses no bit. -/
theorem toNat_setWidth_shiftLeft (b : Byte) {k : Nat} (hk : k ≤ 24) :
    (b.setWidth 32 <<< k).toNat = b.toNat <<< k := by
  have hfits : b.toNat <<< k < 2 ^ 32 :=
    (Nat.shiftLeft_lt b.isLt).trans_le (Nat.pow_le_pow_right (by decide) (by omega))
  rw [BitVec.toNat_shiftLeft, BitVec.toNat_setWidth_of_le (by decide), Nat.mod_eq_of_lt hfits]

/-- `le32` lays its four bytes end to end, the first one lowest. -/
theorem le32_eq_append (b0 b1 b2 b3 : Byte) : le32 b0 b1 b2 b3 = b3 ++ b2 ++ b1 ++ b0 := by
  apply BitVec.eq_of_toNat_eq
  simp only [le32, BitVec.toNat_or, BitVec.toNat_setWidth_of_le, toNat_setWidth_shiftLeft,
    BitVec.toNat_append, Nat.shiftLeft_or_distrib, ← Nat.shiftLeft_add, Nat.reduceLeDiff]
  -- the same four terms, in the opposite order
  rw [Nat.or_comm, Nat.or_comm (_ ||| _), Nat.or_comm b0.toNat, ← Nat.or_assoc, ← Nat.or_assoc]

/-- Four neighbouring bytes of a value, read as a word, are its 32 bits from there. -/
theorem le32_extractLsb' (v : BitVec 64) (n : Nat) :
    le32 (v.extractLsb' n 8) (v.extractLsb' (n + 8) 8) (v.extractLsb' (n + 16) 8)
      (v.extractLsb' (n + 24) 8) = v.extractLsb' n 32 := by
  rw [le32_eq_append]
  iterate 3 rw [BitVec.extractLsb'_append_extractLsb'_eq_extractLsb' (by rfl)]

/-- Byte `i` of `LE64(v)` is eight bits of `v`: the mask cuts nothing that the byte keeps. -/
theorem le64Byte_eq_extractLsb' (v : BitVec 64) (i : Nat) :
    le64Byte v i = v.extractLsb' (8 * i) 8 := by
  have hmask : (0xFF : BitVec 64).setWidth 8 = BitVec.allOnes 8 := rfl
  rw [le64Byte, BitVec.setWidth_and, hmask, BitVec.and_allOnes,
    BitVec.setWidth_ushiftRight_eq_extractLsb]

/-! ## The trailer in the buffer (R55, R57) -/

theorem read_writeTrailer (s : State) (a : Nat) :
    (writeTrailer s).buf.read a =
      if 56 ≤ a ∧ a < 64 then le64Byte (bitLength s.len) (a - 56) else s.buf.read a :=
  read_writeTrailerFrom _ 8 0 _ a le_rfl

/-- Words 14 and 15 of the schedule are the low and the high half of the bit length. -/
theorem word_writeTrailer (s : State) {k : Nat} (hk : k < 2) :
    (writeTrailer s).buf.word (14 + k) = (bitLength s.len).extractLsb' (32 * k) 32 := by
  have hread (i : Nat) (hi : i < 4) : (writeTrailer s).buf.read (4 * (14 + k) + i) =
      (bitLength s.len).extractLsb' (32 * k + 8 * i) 8 := by
    have hidx : 8 * (4 * (14 + k) + i - 56) = 32 * k + 8 * i := by omega
    rw [read_writeTrailer, if_pos (by omega), le64Byte_eq_extractLsb', hidx]
  have hread0 := hread 0 (by decide)
  rw [Nat.add_zero, Nat.mul_zero, Nat.add_zero] at hread0
  rw [Memory.word, hread0, hread 1 (by decide), hread 2 (by decide), hread 3 (by decide)]
  exact le32_extractLsb' _ _

theorem toNat_word_writeTrailer (s : State) {k : Nat} (hk : k < 2) :
    ((writeTrailer s).buf.word (14 + k)).toNat = 8 * s.len.toNat / 2 ^ (32 * k) % 2 ^ 32 := by
  rw [word_writeTrailer s hk, BitVec.extractLsb'_toNat, bitLength_toNat, Nat.shiftRight_eq_div_pow]

/-- Settles O46: the trailer is written from offset 56 on, and `8 * LEN` fits in its two words. -/
theorem trailerAsWords : Obligations.TrailerAsWords := by
  unfold Obligations.TrailerAsWords
  intro s
  have hlow := toNat_word_writeTrailer s (k := 0) (by decide)
  have hhigh := toNat_word_writeTrailer s (k := 1) (by decide)
  have hfits : 8 * s.len.toNat / 2 ^ 32 < 2 ^ 32 := by have := s.len.isLt; omega
  refine ⟨?_, ?_, fun a ha => ?_⟩
  · rwa [Nat.mul_zero, Nat.pow_zero, Nat.div_one] at hlow
  · rwa [Nat.mul_one, Nat.mod_eq_of_lt hfits] at hhigh
  · rw [read_writeTrailer, if_neg (by omega)]

end Sys2Proof.Machine
end

section
/-!
SUPPORT. The decoder and the encoder by the fields of R71: they are inverse to each other, so a word is a command
exactly when it matches the command's row of R73 and holds the operand in its field. Then a step by what its word
decodes to. Settles O1 to O6 and O9.
-/

namespace Sys2Proof.Machine

/-! ## The fields of a word (R71) -/

@[simp] theorem opField_formatC (op idx : BitVec 4) (imm : Byte) :
    opField (formatC op idx imm) = op := by
  rw [opField, formatC, BitVec.append_assoc, BitVec.cast_eq]
  exact BitVec.extractLsb'_append_eq_left

@[simp] theorem idxField_formatC (op idx : BitVec 4) (imm : Byte) :
    idxField (formatC op idx imm) = idx := by
  rw [idxField, formatC, BitVec.extractLsb'_append_eq_of_le (by decide)]
  exact BitVec.extractLsb'_append_eq_right

@[simp] theorem immField_formatC (op idx : BitVec 4) (imm : Byte) :
    immField (formatC op idx imm) = imm :=
  BitVec.extractLsb'_append_eq_right

/-- A word is its three fields, and nothing else. -/
theorem formatC_eq_iff {op idx : BitVec 4} {imm : Byte} {w : CmdWord} :
    formatC op idx imm = w ↔ opField w = op ∧ idxField w = idx ∧ immField w = imm := by
  constructor
  · rintro rfl
    exact ⟨opField_formatC .., idxField_formatC .., immField_formatC ..⟩
  · rintro ⟨rfl, rfl, rfl⟩
    exact formatC_fields w

/-- A mask and a pattern, field by field. -/
theorem and_eq_iff_fields {w mask pattern : CmdWord} :
    w &&& mask = pattern ↔ opField w &&& opField mask = opField pattern ∧
      idxField w &&& idxField mask = idxField pattern ∧
      immField w &&& immField mask = immField pattern := by
  rw [eq_comm, ← formatC_fields pattern, formatC_eq_iff, formatC_fields]
  simp only [opField, idxField, immField, BitVec.extractLsb'_and]

/-- The low twelve bits are the two lower fields. -/
theorem extractLsb'_low_eq_zero_iff (w : CmdWord) :
    w.extractLsb' 0 12 = 0#12 ↔ idxField w = 0#4 ∧ immField w = 0#8 := by
  have hlow : idxField w ++ immField w = w.extractLsb' 0 12 :=
    BitVec.extractLsb'_append_extractLsb'_eq_extractLsb' rfl
  rw [← hlow]
  constructor
  · intro h
    have hidx := congrArg (BitVec.extractLsb' 8 4) h
    have himm := congrArg (BitVec.extractLsb' 0 8) h
    rw [BitVec.extractLsb'_append_eq_left] at hidx
    rw [BitVec.extractLsb'_append_eq_right] at himm
    exact ⟨hidx, himm⟩
  · rintro ⟨hidx, himm⟩
    rw [hidx, himm]
    rfl

/-! ## The word number of `RDH`: two of the four bits of `idx` (R73) -/

theorem idx_eq_zero_append_iff : ∀ (idx : BitVec 4) (i : BitVec 2),
    idx = 0#2 ++ i ↔ idx.extractLsb' 2 2 = 0#2 ∧ idx.extractLsb' 0 2 = i := by
  decide

theorem idx_high_eq_zero_iff_and : ∀ idx : BitVec 4,
    idx.extractLsb' 2 2 = 0#2 ↔ idx &&& 12#4 = 0#4 := by
  decide

theorem idx_high_eq_zero_iff_toNat : ∀ idx : BitVec 4,
    idx.extractLsb' 2 2 = 0#2 ↔ idx.toNat < 4 := by
  decide

theorem idxField_low (w : CmdWord) : (idxField w).extractLsb' 0 2 = w.extractLsb' 8 2 := by
  ext k hk
  simp [idxField]
  omega

/-! ## The decoder and the encoder -/

theorem decode_encode (i : Instr) : decode (encode i) = .instr i := by
  cases i with
  | init | final | rds => rfl
  | pushb b => simp [encode, decode, acceptIf]
  | rdh i =>
    obtain ⟨hhigh, hlow⟩ := (idx_eq_zero_append_iff _ i).1 rfl
    simp [encode, decode, acceptIf, hhigh, hlow]
  | rdd j => simp [encode, decode, acceptIf]

theorem encode_of_decode {w : CmdWord} {i : Instr} (h : decode w = .instr i) : encode i = w := by
  unfold decode at h
  split at h
  -- case `h_k` is `op = k`, and `h_7` is every other `op`
  case h_7 => cases h
  all_goals
    rename_i hop
    obtain ⟨hz, rfl⟩ := acceptIf_eq_instr_iff.1 h
    refine formatC_eq_iff.2 ⟨BitVec.eq_of_toNat_eq hop, ?_⟩
  case h_2 => exact ⟨eq_of_beq hz, rfl⟩
  case h_4 =>
    rw [Bool.and_eq_true, beq_iff_eq, beq_iff_eq] at hz
    exact ⟨(idx_eq_zero_append_iff _ _).2 ⟨hz.1, rfl⟩, hz.2⟩
  case h_5 => exact ⟨rfl, eq_of_beq hz⟩
  all_goals simpa using hz

/-- The decoder and the encoder are inverse to each other (R71 to R73). -/
theorem decode_eq_instr_iff {w : CmdWord} {i : Instr} : decode w = .instr i ↔ encode i = w := by
  refine ⟨encode_of_decode, ?_⟩
  rintro rfl
  exact decode_encode i

/-- Settles O3: every field of the encoded word is the one the decoder reads back. -/
theorem decodeEncode : Obligations.DecodeEncode := by
  unfold Obligations.DecodeEncode
  exact fun i _ => decode_encode i

/-- Settles O4: the decoder checks each bit of the word that no operand holds. -/
theorem encodeDecode : Obligations.EncodeDecode := by
  unfold Obligations.EncodeDecode
  exact fun _ _ => encode_of_decode

/-! ## The opcode rows (R73) -/

/-- The word holds the command's operand in the operand's field (R72). -/
def OperandIn (w : CmdWord) : Instr → Prop
  | .pushb b => w.extractLsb' 0 8 = b
  | .rdh i => w.extractLsb' 8 2 = i
  | .rdd j => w.extractLsb' 8 4 = j
  | _ => True

/-- A word is a command iff it matches the command's row and holds its operand. -/
theorem decode_eq_instr_iff_row {w : CmdWord} {i : Instr} :
    decode w = .instr i ↔ w &&& i.row.mask = i.row.pattern ∧ OperandIn w i := by
  -- a mask of ones keeps its whole field
  have h4 (x : BitVec 4) : x &&& 15#4 = x := BitVec.and_allOnes
  have h8 (x : Byte) : x &&& 255#8 = x := BitVec.and_allOnes
  rw [decode_eq_instr_iff, and_eq_iff_fields]
  cases i with
  | init | final | rds | pushb | rdd =>
    simp [encode, formatC_eq_iff, Instr.row, OperandIn, opField, idxField, immField, h4, h8,
      and_assoc, and_comm, and_left_comm]
  | rdh i =>
    rw [encode, formatC_eq_iff, idx_eq_zero_append_iff, idxField_low, idx_high_eq_zero_iff_and]
    simp [Instr.row, OperandIn, opField, idxField, immField, h4, h8, and_comm, and_left_comm]

/-- Settles O2: the row's mask and the operand's field together hold every bit of the word. -/
theorem commandMatchSets : Obligations.CommandMatchSets := by
  unfold Obligations.CommandMatchSets
  intro w
  exact ⟨decode_eq_instr_iff_row.trans (and_iff_left trivial), fun _ => decode_eq_instr_iff_row,
    decode_eq_instr_iff_row.trans (and_iff_left trivial), fun _ => decode_eq_instr_iff_row,
    fun _ => decode_eq_instr_iff_row, decode_eq_instr_iff_row.trans (and_iff_left trivial)⟩

/-! ## The illegal words (R74, R186) -/

theorem exists_decode_eq_illegal_iff {w : CmdWord} :
    (∃ why, decode w = .illegal why) ↔ ¬∃ i, decode w = .instr i := by
  cases decode w <;> simp

theorem mem_opcodeRows_iff {r : OpRow} : r ∈ opcodeRows ↔ ∃ i : Instr, i.row = r := by
  constructor
  · intro h
    have hrows : opcodeRows = [.init, .pushb 0, .final, .rdh 0, .rdd 0, .rds].map Instr.row := rfl
    rw [hrows] at h
    obtain ⟨i, -, hi⟩ := List.mem_map.1 h
    exact ⟨i, hi⟩
  · rintro ⟨i, rfl⟩
    cases i <;> simp [opcodeRows, Instr.row]

/-- Every word holds some operand in the field of a row's command. -/
theorem exists_operandIn (w : CmdWord) (i : Instr) : ∃ j, j.row = i.row ∧ OperandIn w j := by
  cases i with
  | init => exact ⟨.init, rfl, trivial⟩
  | pushb => exact ⟨.pushb (w.extractLsb' 0 8), rfl, rfl⟩
  | final => exact ⟨.final, rfl, trivial⟩
  | rdh => exact ⟨.rdh (w.extractLsb' 8 2), rfl, rfl⟩
  | rdd => exact ⟨.rdd (w.extractLsb' 8 4), rfl, rfl⟩
  | rds => exact ⟨.rds, rfl, trivial⟩

theorem legalWord_iff {w : CmdWord} : legalWord w = true ↔ ∃ i, decode w = .instr i := by
  rw [legalWord, List.any_eq_true]
  constructor
  · rintro ⟨r, hr, hm⟩
    obtain ⟨i, rfl⟩ := mem_opcodeRows_iff.1 hr
    obtain ⟨j, hj, ho⟩ := exists_operandIn w i
    exact ⟨j, decode_eq_instr_iff_row.2 ⟨hj ▸ eq_of_beq hm, ho⟩⟩
  · rintro ⟨i, h⟩
    exact ⟨i.row, mem_opcodeRows_iff.2 ⟨i, rfl⟩, beq_iff_eq.2 (decode_eq_instr_iff_row.1 h).1⟩

theorem exists_decode_eq_illegal_iff_legalWord {w : CmdWord} :
    (∃ why, decode w = .illegal why) ↔ legalWord w = false := by
  rw [exists_decode_eq_illegal_iff, ← legalWord_iff, Bool.not_eq_true]

theorem exists_acceptIf_eq_illegal_iff {zero : Bool} {i : Instr} {op : BitVec 4} :
    (∃ why, acceptIf zero i op = .illegal why) ↔ zero = false := by
  cases zero <;> simp [acceptIf]

/-- The illegal words field by field, in R74's order: an unknown `op`, or a must-be-zero bit set. -/
theorem exists_decode_eq_illegal_iff_fields {w : CmdWord} :
    (∃ why, decode w = .illegal why) ↔
      let op := (opField w).toNat
      op = 0 ∨ 7 ≤ op ∨
      ((op = 1 ∨ op = 3 ∨ op = 6) ∧ w.extractLsb' 0 12 ≠ 0) ∨
      (op = 2 ∧ idxField w ≠ 0) ∨
      (op = 4 ∧ (4 ≤ (idxField w).toNat ∨ immField w ≠ 0)) ∨
      (op = 5 ∧ immField w ≠ 0) := by
  unfold decode
  split
  case h_7 =>
    have hop : (opField w).toNat = 0 ∨ 7 ≤ (opField w).toNat := by grind
    exact iff_of_true ⟨_, rfl⟩ (hop.imp_right .inl)
  all_goals
    rename_i hop
    rw [exists_acceptIf_eq_illegal_iff]
  case h_4 =>
    simp [hop, idx_high_eq_zero_iff_toNat, imp_iff_not_or]
  all_goals simp [hop, extractLsb'_low_eq_zero_iff]

/-- Settles O5: the decoder's refusals, row by row and field by field, and the one raise they lead to. -/
theorem illegalWords : Obligations.IllegalWords := by
  unfold Obligations.IllegalWords
  exact ⟨fun _ => exists_decode_eq_illegal_iff_legalWord,
    fun _ => exists_decode_eq_illegal_iff_fields, fun _ _ _ _ hp hd => step_of_illegal hp hd⟩

/-- Settles O1: each listed command encodes to its word, and no listed illegal word matches a row. -/
theorem workedEncodings : Obligations.WorkedEncodings := by
  unfold Obligations.WorkedEncodings
  simp only [decode_eq_instr_iff, exists_decode_eq_illegal_iff_legalWord]
  decide

/-! ## One step from every state (R70, R218, R219) -/

/-- Settles O6: the decoded command runs on the state with its word taken. -/
theorem stepRunsDecoded : Obligations.StepRunsDecoded := by
  unfold Obligations.StepRunsDecoded
  exact fun _ _ _ _ hp hd _ => step_of_instr hp hd

/-- A command takes nothing more from the host and answers once (R70). -/
theorem Effect.answers_once {s t : State} {c : Instr} (e : Effect s c t) :
    t.pending = s.pending ∧ ∃ r, t.responses = s.responses ++ [r] := by
  cases e <;> exact ⟨rfl, _, rfl⟩

/-- Settles O9: a word that decodes has one of the effects of its command, any other word raises `ILL`. -/
theorem everyStepCompletes : Obligations.EveryStepCompletes := by
  unfold Obligations.EveryStepCompletes
  intro s
  cases hp : s.pending with
  | nil => exact ⟨s, step_of_pending_nil hp, nofun⟩
  | cons event waiting =>
    cases event with
    | reset c => exact ⟨_, step_of_reset hp, nofun⟩
    | command w =>
      suffices h : ∃ t, step s = .next t ∧ t.pending = waiting ∧
          ∃ r, t.responses = s.responses ++ [r] by
        obtain ⟨t, hstep, hanswer⟩ := h
        refine ⟨t, hstep, ?_⟩
        rintro _ _ ⟨⟩
        exact hanswer
      cases hd : decode w with
      | instr i =>
        obtain ⟨t, hexec, effect⟩ := exists_effect i { s with pending := waiting }
        exact ⟨t, (step_of_instr hp hd).trans hexec, effect.answers_once⟩
      | illegal why => exact ⟨_, step_of_illegal hp hd, rfl, _, rfl⟩

end Sys2Proof.Machine
end

section
/-!
SUPPORT. The Padder: a push and `FINAL` with the blocks they compress, byte by byte, and the length, the layout and
the injectivity of `pad`. Settles O11, O12, O33 and O47 to O49.
-/

namespace Sys2Proof.Machine

/-! ## `PUSHB` (R98, R152) -/

theorem encode_pushb (v : Byte) : encode (.pushb v) = 0x2000 ||| v.setWidth 16 := rfl

/-- The block after a write, byte by byte. -/
theorem Memory.bytes_write (m : Memory) (j : BitVec 6) (v : Byte) :
    (m.write j v).bytes = (List.range 64).map fun a => if a = j.toNat then v else m.read a :=
  List.map_congr_left fun a _ => Memory.read_write m j v a

/-- Settles O11: of the effects of a push, the phase, `LEN` and the fill leave one. -/
theorem pushbResult : Obligations.PushbResult := by
  unfold Obligations.PushbResult
  intro v s
  refine ⟨encode_pushb v, fun hp => (Effect.seq (c := .pushb v) hp).exec_eq,
    fun hp hl => (Effect.ovf hp ((eq_maxBytes_iff _).2 hl)).exec_eq, fun hp hlt => ?_⟩
  have hl : s.len ≠ Config.maxBytes := fun h => hlt.ne ((eq_maxBytes_iff _).1 h)
  have hlen : (s.len + 1).toNat = s.len.toNat + 1 := toNat_succ_of_ne_maxBytes hl
  by_cases hf : fill s.len = 63
  · have hf' : (fill s.len).toNat = 63 := congrArg BitVec.toNat hf
    refine ⟨_, (Effect.fills hp hl hf).exec_eq, hlen, hp, rfl, rfl, rfl,
      fun hne => absurd hf' hne, fun _ => ⟨?_, rfl, Memory.read_zeros⟩⟩
    rw [State.answer_h, Memory.bytes_write, hf']
  · have hf' : (fill s.len).toNat ≠ 63 := fun h => hf (BitVec.eq_of_toNat_eq h)
    exact ⟨_, (Effect.waits hp hl hf).exec_eq, hlen, hp, rfl, rfl, rfl,
      fun _ => ⟨rfl, rfl, Memory.read_write s.buf (fill s.len) v⟩, fun h => absurd h hf'⟩

/-! ## `FINAL` (R99, R100, R153) -/

/-- `FINAL` completes in phase `OPEN`, unless it rejects an empty message. -/
theorem finalWith_of_opened {r : Bool} {s : State} (hp : s.phase = .opened)
    (hl : r = true → s.len ≠ 0) :
    finalWith r s = .next (State.answer
      { s with phase := .done, buf := Memory.zeros, work := none, h := paddedH s } okCode 0) := by
  obtain ⟨hne, -⟩ | ⟨-, hr, h0, -⟩ | ⟨-, -, h⟩ := finalWith_cases r s
  · exact absurd hp hne
  · exact absurd h0 (hl hr)
  · exact h

theorem le64Byte_eq_ofNat (v : BitVec 64) (i : Nat) :
    le64Byte v i = BitVec.ofNat 8 (v.toNat >>> (8 * i)) :=
  le64Byte_eq_extractLsb' v i

/-- The last block, byte by byte: the buffer up to offset 55, then the bit length. -/
theorem lastBlock_eq_map (s : State) (m : Memory) :
    lastBlock s m = (List.range 64).map fun j =>
      if 56 ≤ j then BitVec.ofNat 8 ((8 * s.len.toNat) >>> (8 * (j - 56))) else m.read j := by
  refine List.map_congr_left fun j hj => ?_
  have hj64 : j < 64 := List.mem_range.1 hj
  rw [read_writeTrailerFrom _ 8 0 _ j le_rfl, le64Byte_eq_ofNat, bitLength_toNat]
  by_cases h56 : 56 ≤ j
  · rw [if_pos ⟨h56, hj64⟩, if_pos h56]
  · rw [if_neg fun h => h56 h.1, if_neg h56]

/-- Settles O12: `paddedH` splits on the fill, and its blocks are known byte by byte. -/
theorem finalPads : Obligations.FinalPads := by
  unfold Obligations.FinalPads
  intro r s hp hl
  have hfinal := finalWith_of_opened hp hl
  refine ⟨_, hfinal, fun hr => by rwa [exec_final, ← hr], rfl, Memory.read_zeros, rfl, rfl, rfl, rfl,
    rfl, fun hn => ?_, fun hn => ?_⟩
  · rw [State.answer_h, paddedH, if_neg (by omega), lastBlock_eq_map]
    simp only [Memory.read_write]
  · rw [State.answer_h, paddedH, if_pos hn, lastBlock_eq_map, Memory.bytes_write]
    simp only [Memory.read_zeros]

theorem Holds.len_ne_zero {s : State} {m : List Byte} (h : Holds s m) (hm : m ≠ []) :
    s.len ≠ 0 := by
  intro h0
  have hlen : 0 = m.length := by rw [← h.len, h0]; rfl
  exact hm (List.eq_nil_of_length_eq_zero hlen.symm)

/-- Settles O33: a message of at least one byte is counted in `LEN`, so `FINAL` pads; what it leaves is
`Holds.paddedH_eq`. -/
theorem finalGivesDigestOfMessage : Obligations.FinalGivesDigestOfMessage := by
  unfold Obligations.FinalGivesDigestOfMessage
  intro s m h hm
  exact ⟨_, (Effect.pads h.phase (h.len_ne_zero hm)).exec_eq, h.closed_of_padded, rfl, rfl⟩

/-! ## The padded length (R91) -/

theorem padLen_mod (L : Nat) : padLen L % 64 = 0 := Nat.mul_mod_right 64 _

theorem add_nine_le_padLen (L : Nat) : L + 9 ≤ padLen L := by unfold padLen; omega

theorem padLen_le_add (L : Nat) : padLen L ≤ L + 72 := Nat.mul_div_le _ 64

/-- No smaller multiple of 64 has room for the marker and the trailer. -/
theorem padLen_le_of_mod_eq_zero {L P : Nat} (hP : P % 64 = 0) (hL : L + 9 ≤ P) : padLen L ≤ P := by
  unfold padLen; omega

/-- The trailer fits behind the fill. -/
theorem padLen_of_fill_le {L : Nat} (h : L % 64 ≤ 55) : padLen L = L - L % 64 + 64 := by
  unfold padLen; omega

/-- The trailer needs a block more. -/
theorem padLen_of_le_fill {L : Nat} (h : 56 ≤ L % 64) : padLen L = L - L % 64 + 128 := by
  unfold padLen; omega

/-- Settles O47: the two cases of the fill are `padLen_of_fill_le` and `padLen_of_le_fill`. -/
theorem paddedLength : Obligations.PaddedLength := by
  unfold Obligations.PaddedLength
  intro m
  simp only [pad_length]
  refine ⟨padLen_mod _, add_nine_le_padLen _, fun _ => padLen_le_of_mod_eq_zero, fun hn => ?_,
    fun hn => ?_⟩
  · have hP := padLen_of_fill_le hn
    exact ⟨hP, by omega⟩
  · have hP := padLen_of_le_fill hn
    exact ⟨hP, by omega⟩

/-! ## The layout of the padding (R92 to R94) -/

/-- The trailer, byte by byte, below the limit on the bit length. -/
theorem pad_getD_bitLength {m : List Byte} (hm : 8 * m.length < 2 ^ 64) {i : Nat} (hi : i < 8) :
    (pad m).getD ((pad m).length - 8 + i) 0 = BitVec.ofNat 8 ((8 * m.length) >>> (8 * i)) := by
  rw [pad_length, pad_getD_trailer m hi, le64Byte_eq_ofNat, BitVec.toNat_ofNat, Nat.mod_eq_of_lt hm]

theorem zeroFill_count (L : Nat) :
    padLen L - L - 9 = if L % 64 ≤ 55 then 55 - L % 64 else 119 - L % 64 := by
  by_cases hn : L % 64 ≤ 55
  · rw [if_pos hn, padLen_of_fill_le hn]
    omega
  · rw [if_neg hn, padLen_of_le_fill (by omega)]
    omega

/-- Settles O48: the four parts of the padding, in order. -/
theorem padLayout : Obligations.PadLayout := by
  unfold Obligations.PadLayout
  intro m hm
  refine ⟨pad_getD_marker m, fun j hj hP => ?_, ?_, fun i hi => pad_getD_bitLength hm hi⟩
  · rw [pad_length] at hP
    exact pad_getD_zero m hj (by omega)
  · rw [pad_length]
    exact zeroFill_count m.length

/-! ## What the padding determines (R95) -/

theorem pad_take (m : List Byte) : (pad m).take m.length = m := by
  rw [pad, List.append_assoc, List.append_assoc, List.take_left]

/-- The low `n` bytes of a number, read as a little-endian number. -/
theorem sum_bytes_eq_mod (v n : Nat) :
    ((List.range n).map fun i => (BitVec.ofNat 8 (v >>> (8 * i))).toNat * 2 ^ (8 * i)).sum =
      v % 2 ^ (8 * n) := by
  induction n with
  | zero => simp [Nat.mod_one]
  | succ n ih =>
    have hbyte : (BitVec.ofNat 8 (v >>> (8 * n))).toNat = v / 2 ^ (8 * n) % 2 ^ 8 := by
      rw [BitVec.toNat_ofNat, Nat.shiftRight_eq_div_pow]
    rw [List.range_succ, List.map_append, List.sum_append, ih, List.map_singleton,
      List.sum_singleton, hbyte, Nat.mul_succ, Nat.pow_add, Nat.mod_mul,
      Nat.mul_comm (2 ^ (8 * n))]

theorem pad_trailer_sum {m : List Byte} (hm : 8 * m.length < 2 ^ 64) :
    ((List.range 8).map fun i =>
      ((pad m).getD ((pad m).length - 8 + i) 0).toNat * 2 ^ (8 * i)).sum = 8 * m.length := by
  calc _ = ((List.range 8).map fun i =>
        (BitVec.ofNat 8 ((8 * m.length) >>> (8 * i))).toNat * 2 ^ (8 * i)).sum :=
        congrArg List.sum (List.map_congr_left fun i hi => by
          rw [pad_getD_bitLength hm (List.mem_range.1 hi)])
    _ = 8 * m.length % 2 ^ (8 * 8) := sum_bytes_eq_mod _ 8
    _ = 8 * m.length := Nat.mod_eq_of_lt hm

/-- `pad` is injective: the trailer gives the length, and the prefix of that length the message. -/
theorem pad_injective {m m' : List Byte} (hm : 8 * m.length < 2 ^ 64)
    (hm' : 8 * m'.length < 2 ^ 64) (h : pad m = pad m') : m = m' := by
  have hbits : 8 * m.length = 8 * m'.length := by
    rw [← pad_trailer_sum hm, ← pad_trailer_sum hm', h]
  have hlen : m.length = m'.length := Nat.eq_of_mul_eq_mul_left (by decide) hbits
  rw [← pad_take m, ← pad_take m', h, hlen]

/-- Settles O49: the bounds of `padLen`, the prefix, the trailer's value, and `pad_injective`. -/
theorem padProperties : Obligations.PadProperties := by
  unfold Obligations.PadProperties
  refine ⟨fun m => ?_, fun _ => pad_trailer_sum, fun _ _ => pad_injective⟩
  rw [pad_length]
  exact ⟨padLen_mod _, add_nine_le_padLen _, padLen_le_add _, pad_take m⟩

end Sys2Proof.Machine
end

section
/-!
SUPPORT. A whole computation as the host presents it: pushes append their bytes, `FINAL` closes the message, and
sixteen `RDD`s read its digest. Settles O34.
-/

namespace Sys2Proof.Machine

/-! ## Presented commands -/

theorem present_cons (i : Instr) (is : List Instr) :
    present (i :: is) = .command (encode i) :: present is := rfl

theorem present_append (is js : List Instr) : present (is ++ js) = present is ++ present js :=
  List.map_append

/-- A presented command runs on the state with its word taken (R70, R75). -/
theorem Effect.step_eq {s t : State} {i : Instr} {rest : List HostEvent}
    (e : Effect { s with pending := rest } i t) (h : s.pending = .command (encode i) :: rest) :
    step s = .next t :=
  (step_of_instr h (decode_encode i)).trans e.exec_eq

theorem exists_step (s : State) : ∃ t, step s = .next t :=
  (everyStepCompletes s).imp fun _ h => h.1

/-- On the way from `s` to `t` the engine gave the responses `out` and changed no flag; `rest` waits. -/
structure Answered (s t : State) (rest : List HostEvent) (out : List Response) : Prop where
  err : t.err = s.err
  pending : t.pending = rest
  responses : t.responses = s.responses ++ out

theorem Answered.refl {s : State} {rest : List HostEvent} (h : s.pending = rest) :
    Answered s s rest [] :=
  ⟨rfl, h, (List.append_nil _).symm⟩

theorem Answered.trans {s t u : State} {mid rest : List HostEvent} {out out' : List Response}
    (h : Answered s t mid out) (h' : Answered t u rest out') : Answered s u rest (out ++ out') :=
  ⟨h'.err.trans h.err, h'.pending, by rw [h'.responses, h.responses, List.append_assoc]⟩

/-- `INIT` opens the empty message, and clears the flags. -/
theorem step_init {s : State} {rest : List HostEvent}
    (hp : s.pending = .command (encode .init) :: rest) :
    ∃ t, step s = .next t ∧ Holds t [] ∧
      Answered { s with err := Errors.clear } t rest [⟨0, 0⟩] :=
  ⟨_, Effect.init.step_eq hp, holds_nil_of_init .init, rfl, rfl, rfl⟩

/-- A push that fits appends its byte. -/
theorem Holds.step_pushb {s : State} {m : List Byte} {v : Byte} {rest : List HostEvent}
    (h : Holds s m) (hm : m.length < 2 ^ 61 - 1)
    (hp : s.pending = .command (encode (.pushb v)) :: rest) :
    ∃ t, step s = .next t ∧ Holds t (m ++ [v]) ∧ Answered s t rest [⟨0, 0⟩] := by
  have h' : Holds { s with pending := rest } m := h.congr rfl rfl rfl rfl
  obtain ⟨t, -, e⟩ := exists_effect (.pushb v) { s with pending := rest }
  obtain ⟨ht, herr, hresp⟩ := h'.append_of_pushb hm e
  exact ⟨t, e.step_eq hp, ht, herr, e.answers_once.1, hresp⟩

theorem Holds.run_pushes {s : State} {m : List Byte} {rest : List HostEvent} (x : List Byte)
    (h : Holds s m) (hm : m.length + x.length ≤ 2 ^ 61 - 1)
    (hp : s.pending = present (x.map .pushb) ++ rest) :
    ∃ t, RunsTo x.length s t ∧ Holds t (m ++ x) ∧
      Answered s t rest (List.replicate x.length ⟨0, 0⟩) := by
  induction x generalizing s m with
  | nil => exact ⟨s, runsTo_zero s, by rwa [List.append_nil], .refl hp⟩
  | cons v x ih =>
    rw [List.length_cons] at hm
    obtain ⟨t, hstep, ht, hans⟩ := h.step_pushb (by omega) hp
    obtain ⟨u, hrun, hu, hans'⟩ :=
      ih ht (by rw [List.length_append, List.length_singleton]; omega) hans.pending
    exact ⟨u, runsTo_succ hstep hrun, by rwa [List.append_cons], hans.trans hans'⟩

theorem Holds.step_final {s : State} {m : List Byte} {rest : List HostEvent} (h : Holds s m)
    (hm : m ≠ []) (hp : s.pending = .command (encode .final) :: rest) :
    ∃ t, step s = .next t ∧ Closed t m ∧ Answered s t rest [⟨0, 0⟩] := by
  have h' : Holds { s with pending := rest } m := h.congr rfl rfl rfl rfl
  exact ⟨_, (Effect.pads h'.phase (h'.len_ne_zero hm)).step_eq hp, h'.closed_of_padded, rfl, rfl, rfl⟩

/-- `RDD` of a finished engine reads a byte of the digest. -/
theorem Closed.step_rdd {s : State} {m : List Byte} {j : BitVec 4} {rest : List HostEvent}
    (h : Closed s m) (hp : s.pending = .command (encode (.rdd j)) :: rest) :
    ∃ t, step s = .next t ∧ Closed t m ∧ Answered s t rest [⟨0, digestByte (md5State m) j⟩] := by
  have e : Effect { s with pending := rest } (.rdd j) _ := .reads h.phase rfl
  rw [← h.h]
  exact ⟨_, e.step_eq hp, h.congr rfl rfl rfl rfl, rfl, rfl, rfl⟩

/-- `RDD`s of a finished engine read bytes of the digest and keep it. -/
theorem Closed.run_rdds {s : State} {m : List Byte} {rest : List HostEvent} (js : List (BitVec 4))
    (h : Closed s m) (hp : s.pending = present (js.map .rdd) ++ rest) :
    ∃ t, RunsTo js.length s t ∧ Closed t m ∧
      Answered s t rest ((js.map (digestByte (md5State m))).map (Response.mk 0)) := by
  induction js generalizing s with
  | nil => exact ⟨s, runsTo_zero s, h, .refl hp⟩
  | cons j js ih =>
    obtain ⟨t, hstep, ht, hans⟩ := h.step_rdd hp
    obtain ⟨u, hrun, hu, hans'⟩ := ih ht hans.pending
    exact ⟨u, runsTo_succ hstep hrun, hu, hans.trans hans'⟩

/-! ## The digest, byte by byte (R172, R175) -/

theorem ushiftRight_and_0xFF (w : Word) (n : Nat) :
    (w >>> n) &&& 0xFF = (w.extractLsb' n 8).setWidth 32 := by
  apply BitVec.eq_of_toNat_eq
  rw [BitVec.toNat_and, BitVec.toNat_setWidth_of_le (by decide), BitVec.extractLsb'_toNat,
    BitVec.toNat_ushiftRight]
  exact Nat.and_two_pow_sub_one_eq_mod _ 8

/-- `RDD` reads the bytes of one word in the order of `LE32`. -/
theorem map_wordByte (w : Word) :
    (List.range 4).map (fun k => (w >>> (8 * k)) &&& 0xFF) =
      (le32Bytes w).map (BitVec.setWidth 32) := by
  simp only [ushiftRight_and_0xFF]
  rfl

/-- The sixteen bytes that `RDD` reads are those of `digest_bytes`. -/
theorem map_digestByte (q : Quad) :
    ((List.range 16).map (BitVec.ofNat 4)).map (digestByte q) =
      (digestBytes q).map (BitVec.setWidth 32) := by
  simp only [digestBytes, List.map_append, ← map_wordByte]
  rfl

/-- Settles O34: `INIT` opens the empty message, and each of the three runs goes on from the state the one before
it leaves. -/
theorem commandLevelCorrectness : Obligations.CommandLevelCorrectness := by
  unfold Obligations.CommandLevelCorrectness
  intro s m rest hpos hmax hp
  have hm : m ≠ [] := List.ne_nil_of_length_pos hpos
  rw [messageCommands, present_cons, present_append, List.cons_append, List.append_assoc] at hp
  obtain ⟨s₁, hinit, hopen, hans₁⟩ := step_init hp
  obtain ⟨s₂, hpushes, hheld, hans₂⟩ := hopen.run_pushes m (by simpa using hmax) hans₁.pending
  obtain ⟨t, hfinal, hclosed, hans₃⟩ := hheld.step_final hm hans₂.pending
  obtain ⟨u, hreads, hclosed', hans₄⟩ :=
    hclosed.run_rdds ((List.range 16).map (BitVec.ofNat 4))
      (by rw [List.map_map]; exact hans₃.pending)
  have hans := (hans₁.trans hans₂).trans hans₃
  have hrun : RunsTo (m.length + 2) s t :=
    runsTo_succ hinit (runsTo_add exists_step hpushes (runsTo_succ hfinal (runsTo_zero t)))
  refine ⟨t, u, hrun, hclosed, hans.err, ?_, hreads, hclosed', hans₄.err.trans hans.err,
    hans₄.pending, ?_⟩
  · rw [hans.responses, List.append_assoc, ← List.replicate_succ', List.replicate_succ]
    rfl
  · rw [hans₄.responses, map_digestByte, List.map_map]
    rfl

end Sys2Proof.Machine
end

section
/-!
SUPPORT. The additive constants as values of the real sine: `e^i` is close to a Gaussian integer over `19!`, so
`sin k` is close to the imaginary part of its `k`-th power, an exact fraction that is compared with the table.
Settles O41.
-/

namespace Sys2Proof.Machine

open Complex

/-! ## `e^i` as a Gaussian integer over `19!` -/

/-- The common denominator of the first twenty terms of the Taylor sum of `e^i`. -/
def expIDen : ℕ := Nat.factorial 19

/-- The first twenty terms of the Taylor sum of `e^i`, times `19!`. -/
def expINum : GaussianInt :=
  ∑ m ∈ Finset.range 20, ⟨0, 1⟩ ^ m * (Nat.factorial 19 / Nat.factorial m : ℕ)

/-- `e^i`, to within `1 / 19!`. -/
noncomputable def expIApprox : ℂ := GaussianInt.toComplex expINum / expIDen

theorem expIApprox_eq_sum : expIApprox = ∑ m ∈ Finset.range 20, I ^ m / m.factorial := by
  have hI : GaussianInt.toComplex ⟨0, 1⟩ = I := by simp [GaussianInt.toComplex_def]
  rw [expIApprox, expINum, map_sum, Finset.sum_div]
  refine Finset.sum_congr rfl fun m hm => ?_
  have hdvd : m.factorial ∣ Nat.factorial 19 :=
    Nat.factorial_dvd_factorial (Nat.lt_succ_iff.1 (Finset.mem_range.1 hm))
  have hden : (expIDen : ℂ) ≠ 0 := Nat.cast_ne_zero.2 (Nat.factorial_ne_zero 19)
  rw [map_mul, map_pow, hI, map_natCast,
    Nat.cast_div hdvd (Nat.cast_ne_zero.2 m.factorial_ne_zero), ← expIDen, mul_div_assoc,
    div_div_cancel_left' hden, div_eq_mul_inv]

theorem norm_expIApprox_le : ‖expIApprox‖ ≤ 1 := by
  have hint : expINum.norm ≤ (expIDen : ℤ) ^ 2 := by decide +kernel
  have hsq : ‖GaussianInt.toComplex expINum‖ ^ 2 ≤ (expIDen : ℝ) ^ 2 := by
    rw [← normSq_eq_norm_sq, ← GaussianInt.intCast_real_norm]
    exact_mod_cast hint
  rw [expIApprox, norm_div, norm_natCast]
  exact div_le_one_of_le₀ (le_of_sq_le_sq hsq (Nat.cast_nonneg _)) (Nat.cast_nonneg _)

theorem norm_exp_I : ‖exp I‖ = 1 := by simpa using norm_exp_ofReal_mul_I 1

theorem norm_exp_I_sub_le : ‖exp I - expIApprox‖ ≤ 1 / expIDen := by
  rw [expIApprox_eq_sum]
  refine (exp_bound norm_I.le (by decide)).trans ?_
  rw [norm_I, expIDen]
  norm_num [Nat.factorial]

/-! ## The sine of a natural number -/

/-- Powers inside the unit disc part at most linearly. -/
theorem norm_pow_sub_pow_le {z w : ℂ} (hz : ‖z‖ ≤ 1) (hw : ‖w‖ ≤ 1) (k : ℕ) :
    ‖z ^ k - w ^ k‖ ≤ k * ‖z - w‖ := by
  induction k with
  | zero => simp
  | succ k ih =>
    have hsplit : z ^ (k + 1) - w ^ (k + 1) = z ^ k * (z - w) + (z ^ k - w ^ k) * w := by ring
    calc ‖z ^ (k + 1) - w ^ (k + 1)‖
        ≤ ‖z‖ ^ k * ‖z - w‖ + ‖z ^ k - w ^ k‖ * ‖w‖ := by
          rw [hsplit, ← norm_pow, ← norm_mul, ← norm_mul]
          exact norm_add_le _ _
      _ ≤ 1 * ‖z - w‖ + k * ‖z - w‖ * 1 := by
          gcongr
          exact pow_le_one₀ (norm_nonneg z) hz
      _ = (k + 1 : ℕ) * ‖z - w‖ := by push_cast; ring

/-- `sin k`, to within `k / 19!`: the imaginary part of the `k`-th power of `expIApprox`. -/
def sineApprox (k : ℕ) : ℚ := ((expINum ^ k).im : ℚ) / (expIDen : ℚ) ^ k

theorem sineApprox_eq_im (k : ℕ) : (sineApprox k : ℝ) = (expIApprox ^ k).im := by
  rw [sineApprox, expIApprox, div_pow, ← map_pow, ← Nat.cast_pow, ← Nat.cast_pow, div_natCast_im,
    ← GaussianInt.intCast_im, Rat.cast_div, Rat.cast_intCast, Rat.cast_natCast]

theorem abs_sin_sub_sineApprox_le (k : ℕ) : |Real.sin k - sineApprox k| ≤ k / expIDen := by
  have hsin : Real.sin k = (exp I ^ k).im := by
    rw [← exp_nat_mul, ← exp_ofReal_mul_I_im, ofReal_natCast]
  calc |Real.sin k - sineApprox k| = |(exp I ^ k - expIApprox ^ k).im| := by
        rw [hsin, sineApprox_eq_im, sub_im]
    _ ≤ ‖exp I ^ k - expIApprox ^ k‖ := abs_im_le_norm _
    _ ≤ k * ‖exp I - expIApprox‖ := norm_pow_sub_pow_le norm_exp_I.le norm_expIApprox_le k
    _ ≤ k * (1 / expIDen) := by gcongr; exact norm_exp_I_sub_le
    _ = k / expIDen := mul_one_div _ _

/-! ## The table (R119) -/

/-- With the error taken off and added, each scaled sine stays between its entry and the next integer. -/
theorem tableT_brackets_sineApprox : ∀ i < 64,
    ((tableT i).toNat : ℚ) ≤ 2 ^ 32 * (|sineApprox (i + 1)| - (i + 1 : ℕ) / expIDen) ∧
      2 ^ 32 * (|sineApprox (i + 1)| + (i + 1 : ℕ) / expIDen) < ((tableT i).toNat : ℚ) + 1 := by
  decide +kernel

theorem tableT_eq_floor {i : ℕ} (hi : i < 64) :
    ((tableT i).toNat : ℤ) = ⌊(2 : ℝ) ^ 32 * |Real.sin ((i : ℝ) + 1)|⌋ := by
  obtain ⟨hlow, hhigh⟩ := tableT_brackets_sineApprox i hi
  have hlow' := (Rat.cast_le (K := ℝ)).2 hlow
  have hhigh' := (Rat.cast_lt (K := ℝ)).2 hhigh
  have hsin := (abs_abs_sub_abs_le _ _).trans (abs_sin_sub_sineApprox_le (i + 1))
  push_cast at hlow' hhigh' hsin
  obtain ⟨hsin_low, hsin_high⟩ := abs_le.1 hsin
  rw [eq_comm, Int.floor_eq_iff, Int.cast_natCast]
  constructor <;> linarith

/-- The 64 entries differ. -/
theorem tableT_injOn {i j : ℕ} (hi : i < 64) (hj : j < 64) (h : tableT i = tableT j) : i = j := by
  have hnodup : (tableT0 ++ tableT1 ++ tableT2 ++ tableT3).Nodup := by decide +kernel
  rw [tableT, tableT, List.getD_eq_getElem _ 0 hi, List.getD_eq_getElem _ 0 hj] at h
  exact hnodup.getElem_inj_iff.1 h

/-- Settles O41: the powers of `expIApprox` place each scaled sine, and no error reaches an integer. -/
theorem additiveConstantsAreSines : Obligations.AdditiveConstantsAreSines := by
  unfold Obligations.AdditiveConstantsAreSines
  exact ⟨fun _ => tableT_eq_floor, fun _ _ => tableT_injOn⟩

end Sys2Proof.Machine
end

section
/-!
SUPPORT. The Compressor: the round functions bit by bit, the tables, the rotate, the schedule, the micro-operations
and the two forms of the steps. Settles O39, O40 and O42 to O45.
-/

namespace Sys2Proof.Machine

/-! ## The round functions and the tables (R112 to R118) -/

/-- A bit of `F` is a choice between `y` and `z` by `x`. -/
theorem getLsbD_fnF (x y z : Word) (j : Nat) (hj : j < 32) :
    (fnF x y z).getLsbD j = if x.getLsbD j then y.getLsbD j else z.getLsbD j := by
  have hbit : (fnF x y z).getLsbD j =
      (x.getLsbD j && y.getLsbD j || !x.getLsbD j && z.getLsbD j) := by
    rw [fnF, BitVec.getLsbD_or, BitVec.getLsbD_and, BitVec.getLsbD_and, BitVec.getLsbD_not,
      decide_eq_true hj, Bool.true_and]
  rw [hbit]
  cases x.getLsbD j <;> simp

theorem fnG_eq_fnF (x y z : Word) : fnG x y z = fnF z x y := by
  rw [fnG, fnF, BitVec.and_comm x, BitVec.and_comm y]

/-- Settles O39: `G` is `F` with its operands turned round; the other two are bit operations as they stand. -/
theorem roundFunctionBits : Obligations.RoundFunctionBits := by
  unfold Obligations.RoundFunctionBits
  refine fun x y z => ⟨fnG_eq_fnF x y z, fun j hj => ⟨getLsbD_fnF x y z j hj, ?_, ?_, ?_⟩⟩
  · rw [fnG_eq_fnF, getLsbD_fnF z x y j hj]
  · simp [fnHx]
  · simp [fnI, hj]

/-- Settles O40: both tables are finite. -/
theorem stepTables : Obligations.StepTables := by
  unfold Obligations.StepTables
  decide

/-! ## The rotate (R122) -/

theorem rotl32_eq_rotateLeft (x : Word) {s : Nat} (h : s < 32) : rotl32 x s = x.rotateLeft s := by
  rw [BitVec.rotateLeft_eq_rotateLeftAux_of_lt h, BitVec.rotateLeftAux, rotl32]

theorem getLsbD_rotl32 (x : Word) {s j : Nat} (hs : 0 < s) (hs' : s < 32) (hj : j < 32) :
    (rotl32 x s).getLsbD ((j + s) % 32) = x.getLsbD j := by
  rw [rotl32_eq_rotateLeft x hs', BitVec.getLsbD_rotateLeft_of_le hs']
  by_cases hwrap : j + s < 32
  · have hmod : (j + s) % 32 = j + s := Nat.mod_eq_of_lt hwrap
    simp [hmod, hwrap]
  · have hmod : (j + s) % 32 = j + s - 32 := by omega
    have hidx : 32 - s + (j + s - 32) = j := by omega
    have hlow : j + s - 32 < s := by omega
    simp [hmod, hlow, hidx]

theorem tableS_bounds : ∀ i < 64, 4 ≤ tableS i ∧ tableS i ≤ 23 := by decide

/-- Settles O42: the rotate is the library's, whose bits are known; the amounts are a finite table. -/
theorem rotateMovesBits : Obligations.RotateMovesBits := by
  unfold Obligations.RotateMovesBits
  exact ⟨fun x _ _ => getLsbD_rotl32 x, tableS_bounds⟩

/-! ## The message schedule (R53, R111) -/

/-- The bytes above the lowest one. -/
theorem extractLsb'_append_byte {w : Nat} (x : BitVec w) (b : Byte) (n : Nat) :
    (x ++ b).extractLsb' (n + 8) 8 = x.extractLsb' n 8 :=
  BitVec.extractLsb'_append_eq_of_le (Nat.le_add_left 8 n)

/-- Byte `i` of a word is the `i`-th of the four bytes it is made of. -/
theorem extractLsb'_le32 (f : Nat → Byte) {i : Nat} (hi : i < 4) :
    (le32 (f 0) (f 1) (f 2) (f 3)).extractLsb' (8 * i) 8 = f i := by
  rw [le32_eq_append]
  interval_cases i
  · exact BitVec.extractLsb'_append_eq_right
  · exact (extractLsb'_append_byte _ _ 0).trans BitVec.extractLsb'_append_eq_right
  · exact ((extractLsb'_append_byte _ _ 8).trans (extractLsb'_append_byte _ _ 0)).trans
      BitVec.extractLsb'_append_eq_right
  · exact ((extractLsb'_append_byte _ _ 16).trans (extractLsb'_append_byte _ _ 8)).trans
      BitVec.extractLsb'_append_eq_left

/-- Settles O45: both schedules lay four neighbouring bytes into a word. -/
theorem scheduleLittleEndian : Obligations.ScheduleLittleEndian := by
  unfold Obligations.ScheduleLittleEndian
  exact ⟨fun m k _ _ => extractLsb'_le32 fun i => m.read (4 * k + i),
    fun blk k _ _ => extractLsb'_le32 fun i => blk.getD (4 * k + i) 0⟩

/-! ## The micro-operations (R123, R124, R127) -/

theorem microStep_of_work {s : State} {w : Working} (h : s.work = some w) :
    microStep s = { s with work := some ⟨roundStep w.i.toNat w.regs s.buf.word, w.i + 1⟩ } := by
  rw [microStep, h]

theorem foldw_of_work {s : State} {w : Working} (h : s.work = some w) :
    foldw s = { s with h := Quad.add s.h w.regs, work := none } := by
  rw [foldw, h]

/-- Settles O43: STEP and FOLD act on the working registers, which are there. -/
theorem compressionMicroOperations : Obligations.CompressionMicroOperations := by
  unfold Obligations.CompressionMicroOperations
  exact ⟨fun _ => rfl, fun _ _ _ _ _ _ hw => microStep_of_work hw,
    fun _ _ _ _ _ _ hw => foldw_of_work hw⟩

/-! ## The two forms of the steps (R125) -/

/-- The registers rotated right by `n mod 4` places. -/
def rotateRegs (n : Nat) (r : Quad) : Quad :=
  match n % 4 with
  | 0 => r
  | 1 => ⟨r.d, r.a, r.b, r.c⟩
  | 2 => ⟨r.c, r.d, r.a, r.b⟩
  | _ => ⟨r.b, r.c, r.d, r.a⟩

/-- A step of the rotating form is a fixed-register step, seen one place further. -/
theorem roundStep_rotateRegs (n : Nat) (r : Quad) (M : Nat → Word) :
    roundStep n (rotateRegs n r) M = rotateRegs (n + 1) (fixedStep n r M) := by
  have hn : n % 4 = 0 ∨ n % 4 = 1 ∨ n % 4 = 2 ∨ n % 4 = 3 := by omega
  obtain h | h | h | h := hn <;>
    simp [rotateRegs, fixedStep, roundStep, h, Nat.add_mod n 1]

theorem roundSteps_eq_rotateRegs (n : Nat) (q : Quad) (M : Nat → Word) :
    roundSteps n 0 q M = rotateRegs n (fixedSteps n 0 q M) := by
  induction n with
  | zero => rfl
  | succ n ih => rw [roundSteps_succ, fixedSteps_succ, ih, Nat.zero_add, roundStep_rotateRegs]

/-- Settles O44: each step turns the rotation one place further, and 64 places are none. -/
theorem fixedRegisterForm : Obligations.FixedRegisterForm := by
  unfold Obligations.FixedRegisterForm
  exact fun q M => ⟨fun n _ => roundSteps_eq_rotateRegs n q M, roundSteps_eq_rotateRegs 64 q M⟩

end Sys2Proof.Machine
end

section
/-!
SUPPORT. The message commands as the host sees them: `INIT`, the code and the phase after every command, the
empty message, and what leaves a message, its digest and a new computation undisturbed. Settles O10, O22, O23 and
O35 to O37.
-/

namespace Sys2Proof.Machine

/-! ## What a command answers (R150 to R155, R189) -/

/-- Settles O10: the fields of the one effect of `INIT`. -/
theorem initResult : Obligations.InitResult := by
  unfold Obligations.InitResult
  exact ⟨rfl, fun s => ⟨_, Effect.init.exec_eq, rfl, rfl, rfl, rfl, rfl, Memory.read_zeros, rfl, rfl,
    rfl, rfl, rfl⟩⟩

/-- A command answers `OK`, or raises one error in the state it found, its phase closed if the error is
`EMPTY` (R155, R189). -/
theorem Effect.ok_or_raised {s t : State} {c : Instr} (e : Effect s c t) :
    (∃ d, t.responses = s.responses ++ [⟨okCode, d⟩]) ∨
      ∃ k, t = State.raised { s with phase := if k = .empty then .idle else s.phase } k := by
  cases e with
  | init | waits | fills | pads | reads => exact .inl ⟨_, rfl⟩
  | seq => exact .inr ⟨.seq, rfl⟩
  | ovf => exact .inr ⟨.ovf, rfl⟩
  | empty => exact .inr ⟨.empty, rfl⟩

/-- Settles O22: `Effect.ok_or_raised`, with the raise written out. -/
theorem raisesWriteNothingElse : Obligations.RaisesWriteNothingElse := by
  unfold Obligations.RaisesWriteNothingElse
  intro c s
  obtain ⟨t, ht, e⟩ := exists_effect c s
  exact ⟨t, ht, e.answers_once.1, e.ok_or_raised⟩

/-- Settles O23: each effect is one entry of the table, but `SEQ`, which is an entry for each phase that does
not accept the command. -/
theorem phaseTable : Obligations.PhaseTable := by
  unfold Obligations.PhaseTable
  refine ⟨fun c s => ?_, fun s w rest why hp hd => ⟨_, 0, step_of_illegal hp hd, rfl, rfl⟩⟩
  obtain ⟨t, ht, e⟩ := exists_effect c s
  cases e with
  | init => exact ⟨_, _, _, ht, rfl, rfl⟩
  | ovf hp hl =>
    refine ⟨_, _, _, ht, rfl, ?_⟩
    rw [State.raised_phase, hp]
    exact (if_pos ((eq_maxBytes_iff _).1 hl)).symm
  | waits hp hl | fills hp hl =>
    refine ⟨_, _, _, ht, rfl, ?_⟩
    rw [State.answer_phase, hp]
    exact (if_neg (mt (eq_maxBytes_iff _).2 hl)).symm
  | empty hp hl =>
    refine ⟨_, _, _, ht, rfl, ?_⟩
    rw [State.raised_phase, hp]
    exact (if_pos hl).symm
  | pads hp hl =>
    refine ⟨_, _, _, ht, rfl, ?_⟩
    rw [State.answer_phase, hp]
    exact (if_neg hl).symm
  | seq ha =>
    refine ⟨_, _, _, ht, rfl, ?_⟩
    rw [State.raised_phase]
    cases c with
    | init | rds => exact absurd trivial ha
    | pushb | final =>
      cases hp : s.phase with
      | opened => exact absurd hp ha
      | idle | done => rfl
    | rdh => rw [show s.phase = .idle from not_not.1 ha]; rfl
    | rdd =>
      cases hp : s.phase with
      | done => exact absurd hp ha
      | idle | opened => rfl
  | reads ha hd =>
    refine ⟨_, _, _, ht, rfl, ?_⟩
    rw [State.answer_phase]
    cases c with
    | init | pushb | final => cases hd
    | rdh =>
      cases hp : s.phase with
      | idle => exact absurd hp ha
      | opened | done => rfl
    | rdd => rw [show s.phase = .done from ha]; rfl
    | rds => rfl

/-! ## The empty message (R156, R188) -/

/-- `FINAL` of the empty message raises `EMPTY`. -/
theorem Holds.step_final_nil {s : State} {rest : List HostEvent} (h : Holds s [])
    (hp : s.pending = .command (encode .final) :: rest) :
    step s = .next (State.raised { s with pending := rest, phase := .idle } .empty) :=
  (Effect.empty (s := { s with pending := rest }) h.phase (BitVec.eq_of_toNat_eq h.len)).step_eq hp

/-- Settles O35: `INIT` opens the empty message, and `FINAL` refuses it. -/
theorem emptyMessageRun : Obligations.EmptyMessageRun := by
  unfold Obligations.EmptyMessageRun
  intro s rest hp
  obtain ⟨t, hinit, hopen, hans⟩ := step_init hp
  have hfinal := hopen.step_final_nil hans.pending
  refine ⟨_, runsTo_succ hinit (runsTo_succ hfinal (runsTo_zero _)), rfl, ?_, rfl, ?_⟩
  · rw [State.raised_err, hans.err]
    rfl
  · rw [State.raised_responses, hans.responses, List.append_assoc]
    rfl

/-! ## What leaves a message and its digest undisturbed (R156) -/

/-- A readout writes its response and at most the flag `SEQ`, so the message stays. -/
theorem Effect.holds_of_readout {s t : State} {c : Instr} {m : List Byte} (e : Effect s c t)
    (hc : c = .rds ∨ (∃ i, c = .rdh i) ∨ ∃ j, c = .rdd j) (h : Holds s m) : Holds t m := by
  cases e with
  | seq | reads => exact h.congr rfl rfl rfl rfl
  | init | ovf | waits | fills | empty | pads => simp at hc

/-- In phase `DONE` every command but `INIT` is refused or reads, so the digest stays. -/
theorem Effect.closed {s t : State} {c : Instr} {m : List Byte} (e : Effect s c t)
    (hc : c ≠ .init) (h : Closed s m) : Closed t m := by
  have hp : s.phase ≠ .opened := by rw [h.phase]; decide
  cases e with
  | seq | reads => exact h.congr rfl rfl rfl rfl
  | init => exact absurd rfl hc
  | ovf ho | waits ho | fills ho | empty ho | pads ho => exact absurd ho hp

/-- Settles O36: readouts, refused commands and illegal words write none of the registers that hold the message
or its digest. -/
theorem interleavedCommandsHarmless : Obligations.InterleavedCommandsHarmless := by
  unfold Obligations.InterleavedCommandsHarmless
  refine ⟨fun s m c h hc => ?_, fun s m c h hc => ?_, fun s m w rest hp hw => ?_⟩
  · obtain ⟨t, ht, e⟩ := exists_effect c s
    exact ⟨t, ht, e.holds_of_readout hc h⟩
  · obtain ⟨t, ht, e⟩ := exists_effect c s
    exact ⟨t, ht, e.closed hc h⟩
  · obtain ⟨why, hd⟩ := exists_decode_eq_illegal_iff_legalWord.2 hw
    exact ⟨_, step_of_illegal hp hd, fun h => h.congr rfl rfl rfl rfl,
      fun h => h.congr rfl rfl rfl rfl⟩

/-! ## A new computation (R151, R156, R217) -/

/-- After `INIT` two engines with the same presentation are alike, whatever they were before. -/
theorem alike_of_step_init {s t : State} {rest : List HostEvent}
    (hs : s.pending = .command (encode .init) :: rest)
    (ht : t.pending = .command (encode .init) :: rest) :
    ∃ s' t', step s = .next s' ∧ step t = .next t' ∧ Alike s' t' ∧
      s'.responses = s.responses ++ [⟨0, 0⟩] ∧ t'.responses = t.responses ++ [⟨0, 0⟩] :=
  ⟨_, _, Effect.init.step_eq hs, Effect.init.step_eq ht,
    ⟨rfl, rfl, rfl, fun _ => ⟨rfl, rfl, rfl⟩⟩, rfl, rfl⟩

/-- Settles O37: `INIT` makes the two engines alike, and engines alike run alike. -/
theorem initForgetsThePast : Obligations.InitForgetsThePast := by
  unfold Obligations.InitForgetsThePast
  intro s t rest hs ht k
  obtain ⟨s₁, t₁, hs₁, ht₁, h₁, hrs₁, hrt₁⟩ := alike_of_step_init hs ht
  obtain ⟨s', t', out, hs', ht', h', hrs', hrt'⟩ := h₁.run k
  refine ⟨s', t', [⟨0, 0⟩] ++ out, runsTo_succ hs₁ hs', runsTo_succ ht₁ ht', ?_, ?_,
    h'.phase.symm, h'.err.symm, fun hne => ?_⟩
  · rw [hrs', hrs₁, List.append_assoc]
  · rw [hrt', hrt₁, List.append_assoc]
  · obtain ⟨hh, hlen, hbuf⟩ := h'.regs hne
    exact ⟨hh.symm, hlen.symm, hbuf.symm⟩

end Sys2Proof.Machine
end

section
/-!
SUPPORT. The readout commands: the bits of `STATUS`, the digest byte by byte, and what each readout answers and
leaves alone. Settles O14 to O18.
-/

namespace Sys2Proof.Machine

/-! ## `STATUS`, bit by bit (R29) -/

theorem getLsbD_flagBit (f : Bool) (k : Nat) {j : Nat} (hj : j < 32) :
    (flagBit f k).getLsbD j = (decide (j = k) && f) := by
  rw [flagBit, BitVec.getLsbD_shiftLeft, BitVec.getLsbD_setWidth, BitVec.getLsbD_ofBool]
  obtain hlt | rfl | hgt := Nat.lt_trichotomy j k
  · simp [hlt, hlt.ne]
  · simp [hj]
  · have hpos : j - k ≠ 0 := by omega
    simp [hpos, hgt.ne']

/-- Each bit of `STATUS` below bit 32 is a bit of `PHASE`, a flag, or zero. -/
theorem State.getLsbD_status (s : State) {j : Nat} (hj : j < 32) :
    s.status.getLsbD j = (s.phase.bits.getLsbD j || decide (j = 4) && s.err.ill ||
      decide (j = 5) && s.err.seq || decide (j = 6) && s.err.empty ||
      decide (j = 7) && s.err.ovf) := by
  simp only [State.status, BitVec.getLsbD_or, BitVec.getLsbD_setWidth, getLsbD_flagBit _ _ hj, hj,
    decide_true, Bool.true_and]

/-- The two lowest bits are `PHASE`. -/
theorem State.status_phase (s : State) : s.status.extractLsb' 0 2 = s.phase.bits := by
  refine BitVec.eq_of_getLsbD_eq fun i hi => ?_
  have hflags : i ≠ 4 ∧ i ≠ 5 ∧ i ≠ 6 ∧ i ≠ 7 := by omega
  rw [BitVec.getLsbD_extractLsb', Nat.zero_add, s.getLsbD_status (by omega)]
  simp [hi, hflags]

/-- A field of `STATUS` that meets neither `PHASE` nor a flag is zero. -/
theorem State.status_zero_field (s : State) {start len : Nat} (h2 : 2 ≤ start)
    (hgap : start + len ≤ 4 ∨ 8 ≤ start) (h32 : start + len ≤ 32) :
    s.status.extractLsb' start len = 0 := by
  refine BitVec.eq_of_getLsbD_eq fun i hi => ?_
  have hflags : start + i ≠ 4 ∧ start + i ≠ 5 ∧ start + i ≠ 6 ∧ start + i ≠ 7 := by omega
  have hphase : s.phase.bits.getLsbD (start + i) = false :=
    BitVec.getLsbD_of_ge _ _ (h2.trans (Nat.le_add_right ..))
  rw [BitVec.getLsbD_extractLsb', s.getLsbD_status (by omega), hphase]
  simp [hflags]

/-- Settles O16: the response is `STATUS`, whose bits are known. -/
theorem rdsResult : Obligations.RdsResult := by
  unfold Obligations.RdsResult
  refine ⟨rfl, fun s => ⟨s.status, exec_rds s, s.status_phase,
    s.status_zero_field le_rfl (.inl le_rfl) (by decide), ?_, ?_, ?_, ?_,
    s.status_zero_field (by decide) (.inr le_rfl) le_rfl⟩⟩
  all_goals
    rw [s.getLsbD_status (by decide), BitVec.getLsbD_of_ge _ _ (by decide)]
    simp

/-! ## A readout, completed or refused (R170) -/

/-- A response given changes nothing that is read out. -/
theorem readout_answer (s : State) (code : BitVec 4) (d : Word) (c : Instr) :
    readout (s.answer code d) c = readout s c := by
  cases c <;> rfl

/-- Settles O17: a readout is refused or reads, and what it reads is the same after it. -/
theorem readoutsWriteNothing : Obligations.ReadoutsWriteNothing := by
  unfold Obligations.ReadoutsWriteNothing
  intro c s hc
  obtain ⟨t, ht, e⟩ := exists_effect c s
  refine ⟨t, ht, ?_⟩
  cases e with
  | seq => exact .inr ⟨.seq, rfl⟩
  | @reads _ d ha hd =>
    have hagain : readout (s.answer okCode d) c = some d := (readout_answer s okCode d c).trans hd
    exact .inl ⟨d, rfl, (Effect.reads (s := s.answer okCode d) ha hagain).exec_eq⟩
  | init | ovf | waits | fills | empty | pads => simp at hc

/-! ## The digest, byte by byte (R60, R172, R175) -/

/-- Byte `j` of a State: byte `j mod 4` of word `j div 4`. -/
def Quad.byte (q : Quad) (j : Nat) : Byte :=
  (Quad.word q (BitVec.ofNat 2 (j / 4))).extractLsb' (8 * (j % 4)) 8

theorem Quad.word_ofNat (q : Quad) {n : Nat} (hn : n < 4) :
    Quad.word q (BitVec.ofNat 2 n) = [q.a, q.b, q.c, q.d].getD n 0 := by
  interval_cases n <;> rfl

theorem Quad.byte_eq_ofNat (q : Quad) {j : Nat} (hj : j < 16) :
    Quad.byte q j =
      BitVec.ofNat 8 (([q.a, q.b, q.c, q.d].getD (j / 4) 0).toNat >>> (8 * (j % 4))) := by
  rw [Quad.byte, Quad.word_ofNat q (by omega)]
  rfl

theorem digestBytes_eq_map (q : Quad) : digestBytes q = (List.range 16).map (Quad.byte q) := rfl

theorem digestByte_eq_byte (q : Quad) (j : BitVec 4) :
    digestByte q j = (Quad.byte q j.toNat).setWidth 32 :=
  ushiftRight_and_0xFF _ _

/-- Settles O18: both `digest_bytes` and `RDD` read `Quad.byte`. -/
theorem digestByteView : Obligations.DigestByteView := by
  unfold Obligations.DigestByteView
  refine fun q => ⟨rfl, fun j hj => ?_⟩
  rw [← Quad.byte_eq_ofNat q hj]
  refine ⟨?_, ?_⟩
  · simp [digestBytes_eq_map, List.getD, hj]
  · rw [digestByte_eq_byte, BitVec.toNat_ofNat, Nat.mod_eq_of_lt hj]

/-! ## `RDH` and `RDD` (R171, R172) -/

theorem encode_rdh : ∀ i : BitVec 2, encode (.rdh i) = 0x4000 ||| (i.setWidth 16 <<< 8) := by decide

theorem encode_rdd : ∀ j : BitVec 4, encode (.rdd j) = 0x5000 ||| (j.setWidth 16 <<< 8) := by decide

/-- Settles O14: the phase decides between the refusal and the word. -/
theorem rdhResult : Obligations.RdhResult := by
  unfold Obligations.RdhResult
  refine ⟨encode_rdh, fun s => ⟨fun hp i => ?_, fun hp => ?_⟩⟩
  · exact (Effect.seq (c := .rdh i) (not_not_intro hp)).exec_eq
  · have hreads (i : BitVec 2) : exec (.rdh i) s = .next (s.answer okCode (Quad.word s.h i)) :=
      (Effect.reads (c := .rdh i) hp rfl).exec_eq
    exact ⟨hreads 0, hreads 1, hreads 2, hreads 3⟩

/-- A byte mask leaves no bit above the lowest eight. -/
theorem extractLsb'_and_0xFF (w : Word) : (w &&& 0xFF).extractLsb' 8 24 = 0#24 := by
  have hmask : (0xFF : Word).extractLsb' 8 24 = 0#24 := rfl
  rw [BitVec.extractLsb'_and, hmask, BitVec.and_zero]

/-- Settles O15: the phase decides between the refusal and the byte, which is a masked word. -/
theorem rddResult : Obligations.RddResult := by
  unfold Obligations.RddResult
  refine fun s j => ⟨encode_rdd j, fun hp => (Effect.seq (c := .rdd j) hp).exec_eq, fun hp => ?_⟩
  refine ⟨?_, extractLsb'_and_0xFF _⟩
  rw [← Quad.word_ofNat s.h (by omega)]
  exact (Effect.reads (c := .rdd j) hp rfl).exec_eq

end Sys2Proof.Machine
end

section
/-!
SUPPORT. The exceptions: the four errors of R185 to R191, each with its response, which one is raised when two
apply, and the step that nothing asks for. Settles O7, O13 and O19 to O21.
-/

namespace Sys2Proof.Machine

/-- Settles O7: the step is `holdState`. -/
theorem nothingPresentedHoldsState : Obligations.NothingPresentedHoldsState := by
  unfold Obligations.NothingPresentedHoldsState
  exact fun s h => step_of_pending_nil h

/-! ## `EMPTY` (R188) -/

/-- Settles O13: `FINAL` at `LEN` 0 raises, and where it rejects nothing it pads, for the empty message as for
any other. -/
theorem finalOfEmptyMessage : Obligations.FinalOfEmptyMessage := by
  unfold Obligations.FinalOfEmptyMessage
  exact ⟨fun s hp hl => (Effect.empty hp hl).exec_eq,
    fun s h => ⟨_, finalWith_of_opened h.phase nofun, h.closed_of_padded, rfl, rfl⟩⟩

/-! ## `SEQ` (R154, R187) -/

/-- R187's list of commands and phases: whatever is on it, the phase does not accept (R154). -/
theorem not_accepts_of_seq_case {p : Phase} {c : Instr}
    (h : ((∃ v, c = .pushb v) ∨ c = .final) ∧ p ≠ .opened ∨
      (∃ i, c = .rdh i) ∧ p = .idle ∨
      (∃ j, c = .rdd j) ∧ p ≠ .done) : ¬Accepts p c := by
  obtain ⟨⟨v, rfl⟩ | rfl, hp⟩ | ⟨⟨i, rfl⟩, hp⟩ | ⟨⟨j, rfl⟩, hp⟩ := h
  · exact hp
  · exact hp
  · exact not_not_intro hp
  · exact hp

/-- Settles O19: a command the phase does not accept has the one effect `SEQ`. -/
theorem seqErrors : Obligations.SeqErrors := by
  unfold Obligations.SeqErrors
  exact fun s c h => (Effect.seq (not_accepts_of_seq_case h)).exec_eq

/-! ## `OVF` (R190) -/

/-- Settles O20: the refused push leaves the registers of the message, so `FINAL` closes the message that was
held before it. -/
theorem overflowRefusedThenFinal : Obligations.OverflowRefusedThenFinal := by
  unfold Obligations.OverflowRefusedThenFinal
  intro s v hp hlen
  have hmax : s.len = Config.maxBytes := (eq_maxBytes_iff _).2 hlen
  have hne : (s.raised .ovf).len ≠ 0 := by
    rw [State.raised_len, hmax]
    decide
  have hheld {m : List Byte} (h : Holds s m) : Holds (s.raised .ovf) m := h.congr rfl rfl rfl rfl
  exact ⟨s.raised .ovf, (Effect.ovf hp hmax).exec_eq, rfl, _,
    (Effect.pads (s := s.raised .ovf) hp hne).exec_eq, rfl, rfl,
    fun m h => (hheld h).closed_of_padded⟩

/-! ## At most one error, the first that applies (R191) -/

/-- Settles O21: an illegal word is never run; the phase is checked before `LEN`; and what a command does to the
flags is `Effect.err`. -/
theorem errorPriority : Obligations.ErrorPriority := by
  unfold Obligations.ErrorPriority
  refine ⟨fun s w rest why hp hd => ⟨_, step_of_illegal hp hd, rfl, rfl⟩,
    fun s hp _ => ⟨_, (Effect.seq (c := .final) hp).exec_eq, rfl, rfl⟩,
    fun s v hp _ => ⟨_, (Effect.seq (c := .pushb v) hp).exec_eq, rfl, rfl⟩, fun c s => ?_⟩
  obtain ⟨t, ht, e⟩ := exists_effect c s
  exact ⟨t, ht, e.err⟩

end Sys2Proof.Machine
end

section
/-!
SUPPORT. The reset input (R210, R220): the step that takes it, with `STATUS` in the state it leaves. Settles O8.
-/

namespace Sys2Proof.Machine

/-- `STATUS` is made of `PHASE` and the flags only (R29), so both at their reset values make it zero. -/
theorem State.status_eq_zero_of_idle_of_clear {s : State} (hphase : s.phase = .idle)
    (herr : s.err = Errors.clear) : s.status = 0 := by
  rw [State.status, hphase, herr]
  decide

@[simp] theorem State.applyReset_status (s : State) : s.applyReset.status = 0 :=
  State.status_eq_zero_of_idle_of_clear s.applyReset_phase s.applyReset_err

/-- Settles O8: the step is `applyReset` on the state with the event taken, whichever command it abandons. -/
theorem resetInputEffect : Obligations.ResetInputEffect := by
  unfold Obligations.ResetInputEffect
  intro s c rest hpending
  refine ⟨_, step_of_reset hpending, State.applyReset_phase _, fun k => ?_,
    State.applyReset_status _, State.applyReset_work _, State.applyReset_pending _,
    State.applyReset_responses _⟩
  rw [State.applyReset_err, Errors.flag_clear]

end Sys2Proof.Machine
end
